-- ==== Sys2Proof/Word.lean ====
section
/-! DEFINITION. The widths of 00_scope.md R11 as bit vectors, and zero extension (`zext_N`). Every value of the block
is unsigned (R11). -/

namespace Sys2Proof

/-- A byte, `u8` (R8, R11). -/
abbrev Byte := BitVec 8

/-- A distance in millimetres, `u16` (R8). -/
abbrev Millimetres := BitVec 16

/-- The 32-bit frame word `W` and the 32-bit `OPERAND` (R60, R68). -/
abbrev FrameWord := BitVec 32

/-- The command word, `u36` (R68). -/
abbrev CmdWord := BitVec 36

/-- The field `RSP.DATA`, `u64` (R26). -/
abbrev DataWord := BitVec 64

/-- The packed response word `rsp` (R72). -/
abbrev RspWord := BitVec 71

/-- `zext_n(v)`: `v` widened to `n` bits with zero bits above (R11). -/
abbrev zext (n : Nat) {m : Nat} (v : BitVec m) : BitVec n := v.setWidth n

end Sys2Proof
end

