-- ==== Sys2Proof/Syntax.lean ====
section
/-! DEFINITION. The block's four commands, one constructor per row of spec/opcode_table.json, each operand at the width
30_encoding.md R70 gives it. -/

namespace Sys2Proof

/-- A legal command (R69, R70). An operand has exactly the width of its field, so every term is a command the host can
present. -/
inductive Instr where
  /-- `SYNC`: one frame synchronization attempt on the receive stream (R90, R91). -/
  | sync
  /-- `CHECK hdr, hi, lo, ck`: the checksum validator on four bytes (R112). -/
  | check (hdr hi lo ck : Byte)
  /-- `DECODE hi, lo`: the distance decoder on two bytes (R122). -/
  | decode (hi lo : Byte)
  /-- `TOCM mm`: a distance in millimetres converted to centimetres (R125). -/
  | tocm (mm : Millimetres)
  deriving DecidableEq, Repr

end Sys2Proof
end

