-- ==== Sys2Proof/WellFormed.lean ====
section
/-! DEFINITION. What is well formed: a command word (30_encoding.md R71, by the rows of spec/opcode_table.json) and a
line of assembler (R76). A term of `Instr` needs no check: its operands have the widths of R70. -/

namespace Sys2Proof

/-- A row of spec/opcode_table.json: the word `w` is the row's command when `w &&& mask = pattern`. -/
structure CommandRow where
  mnemonic : String
  mask : CmdWord
  pattern : CmdWord
  deriving DecidableEq, Repr

/-- spec/opcode_table.json, row by row (R69, R70). -/
def commandTable : List CommandRow :=
  [⟨"SYNC", 0xFFFFFFFFF#36, 0x000000000#36⟩,
   ⟨"CHECK", 0xF00000000#36, 0x100000000#36⟩,
   ⟨"DECODE", 0xFFFFF0000#36, 0x200000000#36⟩,
   ⟨"TOCM", 0xFFFFF0000#36, 0x300000000#36⟩]

/-- The word is a command of the row. -/
def CommandRow.covers (r : CommandRow) (w : CmdWord) : Bool := w &&& r.mask == r.pattern

/-- A command word is legal exactly when some row of the table covers it (R71). -/
def legalWord (w : CmdWord) : Bool := commandTable.any fun r => r.covers w

/-- The row of an instruction. -/
def Instr.row : Instr → CommandRow
  | .sync => ⟨"SYNC", 0xFFFFFFFFF#36, 0x000000000#36⟩
  | .check _ _ _ _ => ⟨"CHECK", 0xF00000000#36, 0x100000000#36⟩
  | .decode _ _ => ⟨"DECODE", 0xFFFFF0000#36, 0x200000000#36⟩
  | .tocm _ => ⟨"TOCM", 0xFFFFF0000#36, 0x300000000#36⟩

/-- A line of assembler that holds a command, its numbers as written (R76). -/
inductive AsmLine where
  | sync
  | check (hdr hi lo ck : Nat)
  | decode (hi lo : Nat)
  | tocm (mm : Nat)
  /-- `.word v`: the 36-bit value as it stands. -/
  | word (v : Nat)
  /-- The pseudo-instruction `CHECKW w`, a 32-bit frame word. -/
  | checkw (w : Nat)
  /-- The pseudo-instruction `READING`. -/
  | reading
  deriving DecidableEq, Repr

/-- Every number of the line is in range: a byte operand is 0 to 255, `mm` is 0 to 65535 (R76), the value of `.word` has
36 bits and that of `CHECKW` has 32. A line out of range is an assembly error, not a command (R76; log 22). -/
def AsmLine.wellFormed : AsmLine → Bool
  | .sync => true
  | .check hdr hi lo ck => decide (hdr < 256) && decide (hi < 256) && decide (lo < 256) && decide (ck < 256)
  | .decode hi lo => decide (hi < 256) && decide (lo < 256)
  | .tocm mm => decide (mm < 65536)
  | .word v => decide (v < 2 ^ 36)
  | .checkw w => decide (w < 2 ^ 32)
  | .reading => true

end Sys2Proof
end

