-- ==== Sys2Proof/Decode.lean ====
section
/-! DEFINITION. The command decoder of 30_encoding.md R71, total on 36-bit words and rejecting by name, and after it the
encoder of R68 to R70. -/

namespace Sys2Proof

/-- Why a word is no command (R71, R81). -/
inductive Illegal where
  /-- `OP` is in `0x4` to `0xF`. -/
  | reservedOp
  /-- `OP` is `0x0`, `0x2` or `0x3` and an operand bit that must be zero is one. -/
  | nonzeroField
  deriving DecidableEq, Repr

/-- What the decoder answers: one of the five results of R71. -/
inductive Decoded where
  | ok (i : Instr)
  | illegal (why : Illegal)
  deriving DecidableEq, Repr

/-- `OP = cmd[35:32]` (R68). -/
def opField (w : CmdWord) : BitVec 4 := w.extractLsb' 32 4

/-- `OPERAND = cmd[31:0]` (R68). -/
def operandField (w : CmdWord) : FrameWord := w.extractLsb' 0 32

/-- `OPERAND[31:24]`, `[23:16]`, `[15:8]` and `[7:0]`: the four byte fields of R70 and of the frame word of R60. -/
def byte3 (v : FrameWord) : Byte := v.extractLsb' 24 8
def byte2 (v : FrameWord) : Byte := v.extractLsb' 16 8
def byte1 (v : FrameWord) : Byte := v.extractLsb' 8 8
def byte0 (v : FrameWord) : Byte := v.extractLsb' 0 8

/-- `OPERAND[31:16]`, which must be zero in DECODE and TOCM, and `OPERAND[15:0]` (R70). -/
def upperHalf (v : FrameWord) : BitVec 16 := v.extractLsb' 16 16
def lowerHalf (v : FrameWord) : BitVec 16 := v.extractLsb' 0 16

/-- `Decode(cmd)`, in the order of R71. -/
def decodeCommand (w : CmdWord) : Decoded :=
  let op := opField w
  let opd := operandField w
  if op = 0x0#4 then
    if opd = 0#32 then .ok .sync else .illegal .nonzeroField
  else if op = 0x1#4 then
    .ok (.check (byte3 opd) (byte2 opd) (byte1 opd) (byte0 opd))
  else if op = 0x2#4 then
    if upperHalf opd = 0#16 then .ok (.decode (byte1 opd) (byte0 opd)) else .illegal .nonzeroField
  else if op = 0x3#4 then
    if upperHalf opd = 0#16 then .ok (.tocm (lowerHalf opd)) else .illegal .nonzeroField
  else .illegal .reservedOp

/-- A field of a command word: the value `v` with its lowest bit at bit `k`. -/
def place {m : Nat} (k : Nat) (v : BitVec m) : CmdWord := zext 36 v <<< k

/-- The word of a command: `{OP, OPERAND}` with the operand layout of R70; the fields do not overlap, so they are joined
by or. -/
def encode : Instr → CmdWord
  | .sync => place 32 0x0#4
  | .check hdr hi lo ck => place 32 0x1#4 ||| place 24 hdr ||| place 16 hi ||| place 8 lo ||| place 0 ck
  | .decode hi lo => place 32 0x2#4 ||| place 8 hi ||| place 0 lo
  | .tocm mm => place 32 0x3#4 ||| place 0 mm

/-- The instruction the decoder reads from an instruction whose bits are `w`, numbered as spec/opcode_table.json numbers
them: a command is one 36-bit word (R67, R68), so `w` taken to `nbits` bits must fit in 36 (log 18). -/
def decodeTableWord (nbits w : Nat) : Option Instr :=
  let v := w % 2 ^ nbits
  if v < 2 ^ 36 then
    match decodeCommand (BitVec.ofNat 36 v) with
    | .ok i => some i
    | .illegal _ => none
  else none

end Sys2Proof
end

