-- ==== Sys2Proof/Config.lean ====
section
/-! DEFINITION. The fixed constants of the block (00_scope.md R8), its parameters (R9) and the free values: what the
spec leaves open is an opaque constant here, of which nothing can be proved. -/

namespace Sys2Proof.Config

/-- `HEADER`, a fixed constant (R8). -/
def header : Byte := 0xFF#8

/-- `FRAME_LEN`, a fixed constant (R8). -/
def frameLen : Nat := 4

/-- How far `RX_CAPACITY` lies above its least value; OPEN (R9, I7; log 9). -/
opaque rxCapacityExtra : Nat

/-- `RX_CAPACITY`, at least 4 (R9). -/
def rxCapacity : Nat := rxCapacityExtra + 4

/-- `RX_OVERFLOW`: which byte is lost when one arrives at a full stream, as a position among the bytes held and the new
one, counted from the first byte it may lose and before it is bounded by their number; OPEN, a property of the transport
(R9, R46, I6; log 10). The argument is how many bytes were lost before. -/
opaque rxOverflow : Nat → Nat

/-- How far `RX_COUNT_W` lies above its least value; OPEN (R9, R79, I7; log 11). -/
opaque rxCountExtra : Nat

/-- `RX_COUNT_W`, at least 3 bits (R9, R79). -/
def rxCountW : Nat := rxCountExtra + 3

/-- How far `LAT_MAX` lies above the four edges of the longest row of the reference schedule; OPEN (R9, R80, I8; log 12). -/
opaque latExtra : Nat

/-- `LAT_MAX`: the most clock edges from a command's acceptance to its completion (R80; log 12). -/
def latMax : Nat := latExtra + 4

/-- Whether an implementation lets an edge of a running operation pass, where `LAT_MAX` allows it (R80, I8; log 12). The
arguments are the number of the draw, the edges it may still let pass, and how far the operation has come. -/
opaque freeWait : Nat → Nat → Nat → Bool

/-- Whether an implementation samples `rx_count` for a SYNC at its acceptance edge already (R25, R80; log 12). -/
opaque freeSample : Nat → Bool

/-- `RSP.DATA` where the spec leaves it unspecified: any 64-bit value (R74, I1, I2; log 5). -/
opaque freeData : Nat → DataWord

/-- `CMD` while not busy: any value (R29, I3; logs 6 and 8). -/
opaque freeCmd : Nat → CmdWord

/-- Which of the four values other than `Idle` `ST` has while a command that is not SYNC runs edge by edge (R25, R29; log 16);
the argument is the number of the draw. -/
opaque freeSt : Nat → BitVec 2

/-- `F` after a reset edge: any value, as a frame word (R23, R34, I3; log 8). -/
opaque freeFrame : Nat → FrameWord

/-- `rx_data` while `rx_count = 0`: any value (R79, I17; log 25). -/
opaque freeRxData : Nat → Byte

/-- `BAUD_RATE`: OPEN, a transport constant that no rule of the block reads (R9, I9, D30; log 29). -/
opaque baudRate : Nat

/-- `TRIGGER_BYTE`, host side: no rule of the block reads it (R9, R62; log 29). -/
def triggerByte : Byte := 0x55#8

/-- `TURNAROUND` in milliseconds, the design default, host side: no rule of the block reads it (R9, R171; log 29). -/
def turnaroundMs : Nat := 50

end Sys2Proof.Config
end

