-- ==== Sys2Proof/Machine/State.lean ====
section
/-! DEFINITION. The state of the block (10_state.md R20 to R34), what the transport and the host do next, and the state
after reset (R34). Plain data throughout. -/

namespace Sys2Proof.Machine

/-- `ST`, the DecoderState register: the source's four values and `Idle` (R24). -/
inductive DecoderState where
  | idle
  | seekHeader
  | haveEnoughBytes
  | validated
  | rejected
  deriving DecidableEq, Repr

/-- The eight codes of `RSP.STATUS` by name (R73); the numbers are in Machine/Flags.lean. -/
inductive Status where
  | validated
  | insufficientData
  | framingError
  | checksumError
  /-- Reserved for the host; the block never writes it (R73, I14). -/
  | tooSoon
  /-- Reserved for the Level Estimator; the block never writes it (R73, I14). -/
  | degenerateCalibration
  | complete
  | illegalCommand
  deriving DecidableEq, Repr

/-- `RSP`, the response register (R26). -/
structure Response where
  status : Status
  valid : Bool
  consumed : BitVec 3
  data : DataWord
  deriving DecidableEq, Repr

/-- `F`, the CandidateFrame register, its bytes in wire order (R22). -/
structure Frame where
  header : Byte
  high : Byte
  low : Byte
  checksum : Byte
  deriving DecidableEq, Repr

/-- How far a running operation has come (R25, R80, R91; log 12). -/
inductive Phase where
  /-- Nothing is done yet; for SYNC, the count is not sampled. -/
  | start
  /-- The count was at least 4; the header test is next. -/
  | header
  /-- The pop into `F.high` is next. -/
  | high
  /-- The pop into `F.low` is next. -/
  | low
  /-- The pop into `F.checksum` is next. -/
  | checksum
  /-- The count was below 4; the response is still to be written. -/
  | few
  /-- The header mismatched and its byte is popped; the response is still to be written. -/
  | mismatch
  /-- All four bytes are in `F`; the response is still to be written. -/
  | full
  deriving DecidableEq, Repr

/-- One thing the transport or the host does (R46, R147; log 14). -/
inductive Input where
  /-- The transport appends a byte (R46). -/
  | arrive (b : Byte)
  /-- The host calls `Write(b)` (R45). -/
  | write (b : Byte)
  /-- The host presents a word; it is accepted and its operation runs as one atomic step (R31). -/
  | command (w : CmdWord)
  /-- A rising clock edge with `rst = 0` at which the host presents a word; accepted there, its operation then runs edge
  by edge (R78, R80). -/
  | start (w : CmdWord)
  /-- A rising clock edge with `rst = 0` and no command presented (R78). -/
  | clock
  /-- A rising clock edge with `rst = 1` (R160). -/
  | reset
  /-- The transport answers `Avail()` with the given count from now on, or with the true one again (R48, I11; log 13). -/
  | miscount (claim : Option Nat)
  deriving DecidableEq, Repr

/-- Why the machine stops. -/
inductive Fault where
  /-- `fault TransportContract` (R48, R155): raised by SYNC, atomic or edge by edge, when the transport's count is not the
  number of bytes it holds at an edge with `rst = 0` of the operation or right after one of its pops (at a reset edge the
  model resets instead: DESIGN CHOICE, log 30). Safe: no conforming transport reaches it, and the spec gives the operation no
  meaning. -/
  | transportContract
  deriving DecidableEq, Repr

/-- Why an instruction has no meaning here. -/
inductive Refusal where
  /-- Raised only by an arm of `exec` whose instruction has no meaning yet; no arm is left. Safe. -/
  | notModelled (mnemonic : String)
  deriving DecidableEq, Repr

/-- The state of the block and of what surrounds it (R20; INVENTORY.md, '## State'). -/
structure State where
  /-- `s`, the receive stream, the oldest byte first (R12, R21). -/
  stream : List Byte
  /-- `F` (R22). -/
  frame : Frame
  /-- `ST` (R24, R25). -/
  st : DecoderState
  /-- `RSP` (R26). -/
  rsp : Response
  /-- `CMD` (R29). -/
  cmd : CmdWord
  /-- FSB is busy: a command is accepted and not completed (R29, R34). -/
  busy : Bool
  /-- The port `rsp_valid` (R77, R78). -/
  rspValid : Bool
  /-- The model's own: how far the running operation has come (R80, R91; log 12). -/
  phase : Phase
  /-- The model's own: how many edges the running operation may still let pass (R80; log 12). -/
  slack : Nat
  /-- How many of the bytes a running SYNC has sampled as `n` (R25, R92) it has not popped: they stay at the front until it does
  (R53; log 10). -/
  sampled : Nat
  /-- The model's own: the count a transport that breaks its contract answers, if it does (R48; log 13). -/
  claim : Option Nat
  /-- The bytes the host has sent on the link with `Write`, oldest first (R45; log 20). -/
  sent : List Byte
  /-- What the transport and the host do next, oldest first (R147; log 14). -/
  inputs : List Input
  /-- The model's own: how many unspecified values have been drawn (R74; log 5). -/
  free : Nat
  /-- The model's own: how many bytes have been lost at a full stream (R46; log 10). -/
  lost : Nat
  deriving DecidableEq, Repr

/-- The reset value of `RSP` (R26, R34). -/
def Response.reset : Response := ⟨.insufficientData, false, 0#3, 0#64⟩

/-- The machine right after reset (R34). The spec gives no value for `stream`, `frame` and `cmd`: logs 2, 3 and 4. The
transport keeps its contract and nothing is presented: logs 13 and 14. -/
def State.reset : State where
  stream := []
  frame := ⟨0x00#8, 0x00#8, 0x00#8, 0x00#8⟩
  st := .idle
  rsp := Response.reset
  cmd := 0#36
  busy := false
  rspValid := false
  phase := .start
  slack := 0
  sampled := 0
  claim := none
  sent := []
  inputs := []
  free := 0
  lost := 0

end Sys2Proof.Machine
end

