-- ==== Sys2Proof/Machine/Flags.lean ====
section
/-! DEFINITION. What a status fixes of the response: its code (30_encoding.md R73), the flag `VALID` (10_state.md R27,
R28) and `CONSUMED` (R75); the packed response word (R72) and the ValidatedReading view (R27). -/

namespace Sys2Proof.Machine

/-- The `STATUS` codes (R73). -/
def Status.code : Status → BitVec 3
  | .validated => 0b000#3
  | .insufficientData => 0b001#3
  | .framingError => 0b010#3
  | .checksumError => 0b011#3
  | .tooSoon => 0b100#3
  | .degenerateCalibration => 0b101#3
  | .complete => 0b110#3
  | .illegalCommand => 0b111#3

/-- `RSP.VALID` is 1 exactly for `Validated`, which SYNC alone writes (R27). -/
def validFlag : Status → Bool
  | .validated => true
  | .insufficientData => false
  | .framingError => false
  | .checksumError => false
  | .tooSoon => false
  | .degenerateCalibration => false
  | .complete => false
  | .illegalCommand => false

/-- `RSP.CONSUMED` of each status (R75); the two reserved codes are never written and consume nothing (R73). -/
def consumedCount : Status → BitVec 3
  | .validated => 4#3
  | .insufficientData => 0#3
  | .framingError => 1#3
  | .checksumError => 4#3
  | .tooSoon => 0#3
  | .degenerateCalibration => 0#3
  | .complete => 0#3
  | .illegalCommand => 0#3

/-- A Boolean as one bit of a packed word. -/
def bit (b : Bool) : BitVec 1 := if b then 1#1 else 0#1

/-- `rsp = {STATUS, VALID, CONSUMED, DATA}` (R72): each field at its place, joined by or. -/
def Response.pack (r : Response) : RspWord :=
  zext 71 r.status.code <<< 68 ||| zext 71 (bit r.valid) <<< 67 ||| zext 71 r.consumed <<< 64 ||| zext 71 r.data

/-- The source's ValidatedReading (R15, R27). -/
structure ValidatedReading where
  distanceMillimeters : Millimetres
  valid : Bool
  deriving DecidableEq, Repr

/-- The ValidatedReading the host reads from `RSP` (R27, R128): the pseudo-instruction `READING` after its SYNC (R76). -/
def Response.reading (r : Response) : ValidatedReading := ⟨r.data.extractLsb' 0 16, r.valid⟩

end Sys2Proof.Machine
end

