-- ==== Sys2Proof/Machine/Ops.lean ====
section
/-! DEFINITION. The named operations over the state: the transport capability (20_memory.md R41 to R48), a command's
acceptance (30_encoding.md R78), the response that ends an operation (10_state.md R26) and a reset edge
(70_reset_and_hazards.md R160, R161). The block has no trap, so there is no operation that takes an exception and none
that returns from one (60_exceptions.md R143, R145). -/

namespace Sys2Proof.Machine

/-! The transport capability. -/

/-- `Avail()` (R42): `|s|`, unless the transport breaks its contract and claims another count (R48; log 13). -/
def avail (s : State) : Nat := s.claim.getD s.stream.length

/-- The transport keeps its contract: `Avail()` is the number of bytes `Pop()` can return in a row (R48). -/
def keepsContract (s : State) : Bool := avail s == s.stream.length

/-- `Peek()` (R43). -/
def peek (s : State) : Option Byte := s.stream.head?

/-- `Pop()` (R44): the front byte and the state without it, or nothing. -/
def pop (s : State) : Option (Byte × State) :=
  match s.stream with
  | [] => none
  | b :: rest => some (b, { s with stream := rest })

/-- A `Pop()` of SYNC: the front byte and the state without it; nothing where the stream is empty, or where `Avail()` before or
after it is not the number of bytes the transport holds (R44, R48; log 13). -/
def popSampled (s : State) : Option (Byte × State) :=
  match pop s with
  | none => none
  | some (b, t) =>
    if keepsContract s && keepsContract t then some (b, { t with sampled := t.sampled - 1 }) else none

/-- `Write(b)` (R45): the byte is sent on the link and `s` does not change. -/
def write (b : Byte) (s : State) : State := { s with sent := s.sent ++ [b] }

/-- The place of the byte lost at a full stream: `RX_OVERFLOW` gives it, but no byte that a running SYNC has sampled and not
yet popped is lost, since those stay until that SYNC pops them (R53; log 10). -/
def lostAt (s : State) : Nat :=
  let kept := min s.sampled s.stream.length
  kept + Config.rxOverflow s.lost % (s.stream.length + 1 - kept)

/-- A full stream at which a byte arrives (R46): one of the bytes is lost; the count does not decrease and the order stays
(R54; log 10). -/
def overflow (b : Byte) (s : State) : State :=
  { s with stream := (s.stream ++ [b]).eraseIdx (lostAt s), lost := s.lost + 1 }

/-- An arrival (R46): the byte goes to the back of a stream that has room; at `RX_CAPACITY` the outcome follows
`RX_OVERFLOW`. -/
def arrive (b : Byte) (s : State) : State :=
  if s.stream.length < Config.rxCapacity then { s with stream := s.stream ++ [b] } else overflow b s

/-- The transport's answer to `Avail()` becomes `claim`, or the true count again (R48; log 13). -/
def setClaim (claim : Option Nat) (s : State) : State := { s with claim := claim }

/-! Registers. -/

/-- `ST <- st`. -/
def setSt (st : DecoderState) (s : State) : State := { s with st := st }

/-- `F <- f` (R22). -/
def setFrame (f : Frame) (s : State) : State := { s with frame := f }

/-- What is left of the inputs. -/
def setInputs (inputs : List Input) (s : State) : State := { s with inputs := inputs }

/-- An accepted command is latched into `CMD` and the block becomes busy; the pulse on `rsp_valid`, if one was high, has
ended (R29, R78). -/
def latch (w : CmdWord) (s : State) : State := { s with cmd := w, busy := true, rspValid := false }

/-- How far the running operation has come. -/
def setPhase (p : Phase) (s : State) : State := { s with phase := p }

/-- An edge at which no operation completes: the cycle that follows has `rsp_valid = 0` (R78). -/
def endPulse (s : State) : State := { s with rspValid := false }

/-! The end of an operation. -/

/-- `return Status(d)` (R26): all four fields of `RSP` written together, `ST <- Idle`, no longer busy, `rsp_valid` high for
the cycle that follows (R78). Where the spec leaves `DATA` unspecified, `data` is `none` and the value is free (R74;
log 5); so is `CMD` from here on (R29; log 6). -/
def respond (status : Status) (data : Option DataWord) (s : State) : State :=
  { s with
    rsp := ⟨status, validFlag status, consumedCount status, data.getD (Config.freeData s.free)⟩
    st := .idle
    cmd := Config.freeCmd s.free
    busy := false
    rspValid := true
    phase := .start
    slack := 0
    sampled := 0
    free := s.free + 1 }

/-! Reset. -/

/-- `F` from a frame word `W` (R22, R60). -/
def Frame.ofWord (w : FrameWord) : Frame := ⟨byte3 w, byte2 w, byte1 w, byte0 w⟩

/-- The frame word `W` of `F` (R22, R60). -/
def Frame.toWord (f : Frame) : FrameWord :=
  zext 32 f.header <<< 24 ||| zext 32 f.high <<< 16 ||| zext 32 f.low <<< 8 ||| zext 32 f.checksum

/-- A rising edge with `rst = 1` (R160): the reset values of R34. `F` and `CMD` are unspecified, hence free (R34; log 8).
The stream keeps what it holds; an operation that was running is abandoned without a response, and the bytes it had
popped stay removed (R161). DESIGN CHOICE: so too where the transport's count is wrong at this edge of a running SYNC: the spec
does not say whether R48's fault or this reset wins there, and the model resets (log 30). -/
def resetEdge (s : State) : State :=
  { s with
    frame := Frame.ofWord (Config.freeFrame s.free)
    st := .idle
    rsp := Response.reset
    cmd := Config.freeCmd s.free
    busy := false
    rspValid := false
    phase := .start
    slack := 0
    sampled := 0
    free := s.free + 1 }

end Sys2Proof.Machine
end

