-- ==== Sys2Proof/Machine/Illegal.lean ====
section
/-! DEFINITION. What an illegal command word does (30_encoding.md R71, 60_exceptions.md R142). -/

namespace Sys2Proof.Machine

/-- An illegal word completes with `IllegalCommand` and an unspecified `DATA`, without a transport access (R71, R142). -/
def execIllegal (s : State) : Host.Outcome State Fault Refusal := .next (respond .illegalCommand none s)

end Sys2Proof.Machine
end

