-- ==== Sys2Proof/Machine/Operands.lean ====
section
/-! DEFINITION. The operand forms: the bytes of a command's operand are fields of the word (Decode.lean, 30_encoding.md
R70); SYNC's operand is the front of the receive stream, read into `F` (40_frame_synchronizer.md R95). -/

namespace Sys2Proof.Machine

/-- Four `Pop()` calls in order into `F` (R91 step 3, R95); nothing if any of them returns none or the transport breaks its contract (R48,
R91). -/
def readFrame (s : State) : Option State :=
  match popSampled s with
  | none => none
  | some (r0, s1) =>
    match popSampled s1 with
    | none => none
    | some (r1, s2) =>
      match popSampled s2 with
      | none => none
      | some (r2, s3) =>
        match popSampled s3 with
        | none => none
        | some (r3, s4) => some (setFrame ⟨r0, r1, r2, r3⟩ s4)

/-- One pop cycle (R79, R80): `Pop()`, and the byte goes into a field of `F`. -/
def popInto (put : Byte → Frame → Frame) (s : State) : Option State :=
  match popSampled s with
  | none => none
  | some (b, t) => some { t with frame := put b t.frame }

/-- The fields of `F` a byte can be put into (R22, R95). -/
def Frame.putHeader (b : Byte) (f : Frame) : Frame := { f with header := b }
def Frame.putHigh (b : Byte) (f : Frame) : Frame := { f with high := b }
def Frame.putLow (b : Byte) (f : Frame) : Frame := { f with low := b }
def Frame.putChecksum (b : Byte) (f : Frame) : Frame := { f with checksum := b }

end Sys2Proof.Machine
end

