-- ==== Sys2Proof/Machine/Checksum.lean ====
section
/-! DEFINITION. The Checksum Validator (41_checksum_validator.md): `isValid` and CHECK. -/

namespace Sys2Proof.Machine

/-- `isValid` (R110, R111): the sum of the three bytes, exact in 10 bits, has the checksum as its low 8 bits. The header
is not tested (R113). -/
def isValid (header high low checksum : Byte) : Bool :=
  let sum : BitVec 10 := zext 10 header + zext 10 high + zext 10 low
  sum.extractLsb' 0 8 == checksum

/-- CHECK (R112). -/
def execCheck (header high low checksum : Byte) (s : State) : Host.Outcome State Fault Refusal :=
  .next (respond .complete (some (if isValid header high low checksum then 1#64 else 0#64)) s)

end Sys2Proof.Machine
end

