-- ==== Sys2Proof/Machine/Binary64.lean ====
section
/-! DEFINITION. The centimetre format `CM_FORMAT`: IEEE 754 binary64, round to nearest, ties to even (00_scope.md R9,
92_eei_decisions.md D13). PRESUMED (log 17): the encoding and the division are general knowledge, as the spec marks
them (93_implementation_defined.md G1, G2). -/

namespace Sys2Proof.Machine.Binary64

/-- The biased exponent, bits 62 to 52. -/
def expField (b : DataWord) : Nat := (b.extractLsb' 52 11).toNat

/-- The fraction, bits 51 to 0. -/
def fracField (b : DataWord) : Nat := (b.extractLsb' 0 52).toNat

/-- The sign, bit 63. -/
def signBit (b : DataWord) : Bool := b.getLsbD 63

/-- A finite number is `significand · 2 ^ exponent` with its sign; the exponent field 0 has no hidden bit. -/
def significand (b : DataWord) : Nat := if expField b = 0 then fracField b else 2 ^ 52 + fracField b

/-- The power of two of the significand's unit. -/
def exponent (b : DataWord) : Int := (max (expField b) 1 : Nat) - 1075

/-- The number a bit pattern stands for; none for an infinity or a NaN. -/
def value (b : DataWord) : Option ℚ :=
  if expField b = 2047 then none
  else some ((if signBit b then -1 else 1) * significand b * (2 : ℚ) ^ exponent b)

/-- `num / den` in units of `2 ^ e`, as a numerator and a denominator. -/
def inUnits (num den : Nat) (e : Int) : Nat × Nat :=
  if 0 ≤ e then (num, den * 2 ^ e.toNat) else (num * 2 ^ (-e).toNat, den)

/-- The exponent of the last significand bit of `num / den`: 53 bits above it, or the subnormal unit. -/
def unitExponent (num den : Nat) : Int :=
  let e : Int := (Nat.log2 num : Int) - (Nat.log2 den : Int) - 53
  let q := inUnits num den e
  max (if q.1 / q.2 < 2 ^ 53 then e else e + 1) (-1074)

/-- `n / d` rounded to the nearest natural number, ties to even. -/
def roundEven (n d : Nat) : Nat :=
  let q := n / d
  let r := n % d
  if d < 2 * r ∨ (2 * r = d ∧ q % 2 = 1) then q + 1 else q

/-- The binary64 pattern nearest to `num / den`, ties to even; the infinity when the rounded exponent is too large. The
hidden bit, and a carry out of the significand, raise the exponent field by addition. -/
def ofRatio (num den : Nat) : DataWord :=
  if num = 0 then 0#64
  else
    let e := unitExponent num den
    let q := inUnits num den e
    BitVec.ofNat 64 (min ((e + 1074).toNat * 2 ^ 52 + roundEven q.1 q.2) (2047 * 2 ^ 52))

/-- The binary64 value of a natural number: exact below `2 ^ 53` (R125). -/
def ofNat (n : Nat) : DataWord := ofRatio n 1

/-- `x / y` in binary64, for finite `x` and `y` with `y` not zero and both signs positive: all that TOCM divides (R125,
R126). -/
def divide (x y : DataWord) : DataWord :=
  let e := exponent x - exponent y
  ofRatio (significand x * 2 ^ e.toNat) (significand y * 2 ^ (-e).toNat)

/-- The literal `10.0` (R125, G1). -/
def ten : DataWord := 0x4024000000000000#64

/-- `mm / 10.0` (R125). -/
def centimetres (mm : Millimetres) : DataWord := divide (ofNat mm.toNat) ten

end Sys2Proof.Machine.Binary64
end

