-- ==== Sys2Proof/Machine/Distance.lean ====
section
/-! DEFINITION. The Distance Decoder (42_distance_decoder.md): `decode`, DECODE and TOCM. -/

namespace Sys2Proof.Machine

/-- `decode(high, low) = (high << 8) | low` (R120, R121). -/
def distance (high low : Byte) : Millimetres := (zext 16 high <<< 8) ||| zext 16 low

/-- DECODE (R122). -/
def execDecode (high low : Byte) (s : State) : Host.Outcome State Fault Refusal :=
  .next (respond .complete (some (zext 64 (distance high low))) s)

/-- TOCM (R125): the binary64 bits of `mm / 10.0`. -/
def execTocm (mm : Millimetres) (s : State) : Host.Outcome State Fault Refusal :=
  .next (respond .complete (some (Binary64.centimetres mm)) s)

end Sys2Proof.Machine
end

