-- ==== Sys2Proof/Machine/Synchronizer.lean ====
section
/-! DEFINITION. The Frame Synchronizer (40_frame_synchronizer.md): SYNC, step by step as R91 writes it. -/

namespace Sys2Proof.Machine

/-- Steps 4 and 5 of R91, once `F` holds the frame: the checksum decides (R96, R97). -/
def judgeFrame (s : State) : State :=
  if isValid s.frame.header s.frame.high s.frame.low s.frame.checksum then
    respond .validated (some (zext 64 (distance s.frame.high s.frame.low))) (setSt .validated s)
  else respond .checksumError none (setSt .rejected s)

/-- Step 2 of R91, a header mismatch: exactly one byte is removed (R94). -/
def rejectHeader (s : State) : Host.Outcome State Fault Refusal :=
  match popSampled s with
  | none => .fault .transportContract
  | some (_, t) => .next (respond .framingError none (setSt .rejected t))

/-- One attempt, the pseudocode of R91. -/
def syncAttempt (s : State) : Host.Outcome State Fault Refusal :=
  let s0 := setSt .seekHeader s
  if avail s0 < Config.frameLen then .next (respond .insufficientData none s0)
  else
    let s1 := setSt .haveEnoughBytes s0
    match peek s1 with
    | none => .fault .transportContract
    | some p =>
      if p ≠ Config.header then rejectHeader s1
      else
        match readFrame s1 with
        | none => .fault .transportContract
        | some s2 => .next (judgeFrame s2)

/-- SYNC (R90, R91). A transport that breaks its contract leaves the operation without a meaning (R48, R155; log 13). -/
def execSync (s : State) : Host.Outcome State Fault Refusal :=
  if keepsContract s then syncAttempt s else .fault .transportContract

end Sys2Proof.Machine
end

