-- ==== Sys2Proof/Machine/Dispatch.lean ====
section
/-! DEFINITION. One arm per command: each calls its meaning. -/

namespace Sys2Proof.Machine

def exec (i : Instr) (s : State) : Host.Outcome State Fault Refusal :=
  match i with
  | .sync => Sys2Proof.Machine.execSync s
  | .check hdr hi lo ck => Sys2Proof.Machine.execCheck hdr hi lo ck s
  | .decode hi lo => Sys2Proof.Machine.execDecode hi lo s
  | .tocm mm => Sys2Proof.Machine.execTocm mm s

end Sys2Proof.Machine
end

