-- ==== Sys2Proof/Machine/Cycle.lean ====
section
/-! DEFINITION. The block edge by edge: acceptance at a rising edge of `clk`, and what a running operation does at each edge
after it (10_state.md R25, 30_encoding.md R78, R80). An implementation may let edges pass as long as it completes within
`LAT_MAX`; with none let pass it keeps the reference schedule (log 12). -/

namespace Sys2Proof.Machine

/-- The phases by number, to tell the draws of one operation apart. -/
def Phase.number : Phase → Nat
  | .start => 0
  | .header => 1
  | .high => 2
  | .low => 3
  | .checksum => 4
  | .few => 5
  | .mismatch => 6
  | .full => 7

/-- The running operation lets this edge pass: it still may, and the implementation does (R80; log 12). -/
def waits (s : State) : Bool := decide (0 < s.slack) && Config.freeWait s.free s.slack s.phase.number

/-- An edge the running operation lets pass. -/
def waitEdge (s : State) : State := { endPulse s with slack := s.slack - 1 }

/-- SYNC samples `n <- Avail()`, once (R25, R92). -/
def sampleCount (s : State) : State :=
  let t := { s with sampled := avail s }
  if avail s < Config.frameLen then setPhase .few t else setPhase .header (setSt .haveEnoughBytes t)

/-- `ST` while a command that is not SYNC runs: not `Idle`, since the block is busy (R29); which of the other four values is
open (log 16). -/
def busySt (k : Nat) : DecoderState :=
  let v := Config.freeSt k
  if v = 0#2 then .seekHeader
  else if v = 1#2 then .haveEnoughBytes
  else if v = 2#2 then .validated
  else .rejected

/-- Acceptance at an edge (R78): the word is latched and the block is busy, so `ST` leaves `Idle` (R29). For SYNC it is
`SeekHeader`, and the count may be sampled here (R25; log 12). -/
def accept (w : CmdWord) (s : State) : State :=
  let t := { latch w s with
    st := if decodeCommand w = .ok .sync then .seekHeader else busySt s.free
    phase := .start
    slack := Config.latExtra
    sampled := 0 }
  if decodeCommand w = .ok .sync ∧ Config.freeSample s.free = true then sampleCount t else t

/-- SYNC is the command `w`, and the transport breaks its contract: the operation has no meaning (R48, R155; log 13). -/
def breaksSync (w : CmdWord) (s : State) : Bool := decodeCommand w == .ok .sync && !keepsContract s

/-- The acceptance edge: with SYNC, the first edge at which the transport must keep its contract (R25, R48). -/
def acceptEdge (w : CmdWord) (s : State) : Host.Outcome State Fault Refusal :=
  if breaksSync w s then .fault .transportContract else .next (accept w s)

/-- SYNC's response, once its last transport access is made (R25, R91): each phase has its own. -/
def conclude (s : State) : State :=
  match s.phase with
  | .start => endPulse s
  | .header => endPulse s
  | .high => endPulse s
  | .low => endPulse s
  | .checksum => endPulse s
  | .few => respond .insufficientData none s
  | .mismatch => respond .framingError none s
  | .full => judgeFrame s

/-- The edge of SYNC's last transport access: the response is written there, or later (R78, R80). -/
def finish (s : State) : State := if waits s then waitEdge s else conclude s

/-- The header test and the pop that goes with either outcome (R91, R94, R95). -/
def testEdge (s : State) : Host.Outcome State Fault Refusal :=
  match peek s with
  | none => .fault .transportContract
  | some p =>
    if p ≠ Config.header then
      match popSampled s with
      | none => .fault .transportContract
      | some (_, t) => .next (finish (setPhase .mismatch (setSt .rejected t)))
    else
      match popInto Frame.putHeader s with
      | none => .fault .transportContract
      | some t => .next (endPulse (setPhase .high (setSt .haveEnoughBytes t)))

/-- A later pop of a frame read, into a field of `F` (R80, R95). -/
def popEdge (put : Byte → Frame → Frame) (next : Phase) (s : State) : Host.Outcome State Fault Refusal :=
  match popInto put s with
  | none => .fault .transportContract
  | some t => .next (endPulse (setPhase next t))

/-- `ST` once `F` holds the frame (R25). -/
def verdict (s : State) : DecoderState :=
  if isValid s.frame.header s.frame.high s.frame.low s.frame.checksum then .validated else .rejected

/-- The fourth pop of a frame read: all four bytes are removed, then the checksum is tested (R91, R95). -/
def lastPopEdge (s : State) : Host.Outcome State Fault Refusal :=
  match popInto Frame.putChecksum s with
  | none => .fault .transportContract
  | some t => .next (finish (setPhase .full (setSt (verdict t) t)))

/-- SYNC's first working edge where the count is not sampled yet: it is sampled, and decides the attempt (R92). -/
def seekEdge (s : State) : Host.Outcome State Fault Refusal :=
  if avail s < Config.frameLen then .next (finish (sampleCount s)) else testEdge (sampleCount s)

/-- A working edge of SYNC, by how far it has come. -/
def syncEdge (s : State) : Host.Outcome State Fault Refusal :=
  match s.phase with
  | .start => seekEdge s
  | .header => testEdge s
  | .high => popEdge Frame.putHigh .low s
  | .low => popEdge Frame.putLow .checksum s
  | .checksum => lastPopEdge s
  | .few => .next (conclude s)
  | .mismatch => .next (conclude s)
  | .full => .next (conclude s)

/-- A working edge of the latched command; every command but SYNC completes at its first one (R80). -/
def workEdge (s : State) : Host.Outcome State Fault Refusal :=
  match decodeCommand s.cmd with
  | .illegal _ => execIllegal s
  | .ok .sync => syncEdge s
  | .ok (.check hdr hi lo ck) => exec (.check hdr hi lo ck) s
  | .ok (.decode hi lo) => exec (.decode hi lo) s
  | .ok (.tocm mm) => exec (.tocm mm) s

/-- A rising edge with `rst = 0` at which no command is accepted (R78): an idle block keeps its state but for the end of
the pulse (R154); a busy one lets the edge pass, or works on its command. A transport that breaks its contract at an edge of
a running SYNC leaves it without a meaning (R48; log 13). -/
def edge (s : State) : Host.Outcome State Fault Refusal :=
  if s.busy then
    if breaksSync s.cmd s then .fault .transportContract
    else if waits s then .next (waitEdge s)
    else workEdge s
  else .next (endPulse s)

end Sys2Proof.Machine
end

