-- ==== Sys2Proof/Machine/Events.lean ====
section
/-! DEFINITION. What the machine does with the next thing the transport or the host does (20_memory.md R46, 60_exceptions.md
R147, 30_encoding.md R78; log 14). -/

namespace Sys2Proof.Machine

/-- The latched word is decoded and its operation runs to its response, as one atomic step (R31, R71). -/
def runLatched (w : CmdWord) (s : State) : Host.Outcome State Fault Refusal :=
  match decodeCommand w with
  | .ok i => exec i s
  | .illegal _ => execIllegal s

/-- The next input, or a clock edge where there is none. A word presented while the block is busy is neither accepted nor
lost: it stays, and the edge goes to the running operation (R78, R165). DESIGN CHOICE: a reset edge
resets whatever the transport counts, so a count that is wrong there ends a running SYNC without R48's fault: the spec does not
say whether R48, R155 or R160, R161 win (log 30). -/
def react (s : State) : Host.Outcome State Fault Refusal :=
  match s.inputs with
  | [] => edge s
  | .arrive b :: rest => .next (arrive b (setInputs rest s))
  | .write b :: rest => .next (write b (setInputs rest s))
  | .command w :: rest => if s.busy then edge s else runLatched w (latch w (setInputs rest s))
  | .start w :: rest => if s.busy then edge s else acceptEdge w (setInputs rest s)
  | .clock :: rest => edge (setInputs rest s)
  | .reset :: rest => .next (resetEdge (setInputs rest s))
  | .miscount claim :: rest => .next (setClaim claim (setInputs rest s))

end Sys2Proof.Machine
end

