-- ==== Sys2Proof/Machine/Step.lean ====
section
/-! DEFINITION. One step of the machine, and how a command is placed so that the next step runs it. -/

namespace Sys2Proof.Machine

/-- One step: the next input of the transport or the host takes effect, or a clock edge passes (Machine/Events.lean). -/
def step (s : State) : Host.Outcome State Fault Refusal := react s

/-- The state in which the host presents the word `w`, taken to `nbits` bits, to a block that is ready: the next step
accepts and runs it (R78; log 19). -/
def State.withFetchWord (s : State) (nbits w : Nat) : State :=
  { s with busy := false, inputs := .command (BitVec.ofNat 36 (w % 2 ^ nbits)) :: s.inputs }

end Sys2Proof.Machine
end

