-- ==== Sys2Proof/Machine/Assembler.lean ====
section
/-! DEFINITION. The assembler of 30_encoding.md R76: from the characters of one line to the 36-bit word. The rule gives no
toolchain; what it leaves open of the spelling is log 22. -/

namespace Sys2Proof.Machine.Assembler

/-- The command an assembler line stands for as a word; a line out of range is an assembly error (R76). -/
def assemble (line : AsmLine) : Option CmdWord :=
  if line.wellFormed then
    match line with
    | .sync => some (encode .sync)
    | .check hdr hi lo ck =>
      some (encode (.check (BitVec.ofNat 8 hdr) (BitVec.ofNat 8 hi) (BitVec.ofNat 8 lo) (BitVec.ofNat 8 ck)))
    | .decode hi lo => some (encode (.decode (BitVec.ofNat 8 hi) (BitVec.ofNat 8 lo)))
    | .tocm mm => some (encode (.tocm (BitVec.ofNat 16 mm)))
    | .word v => some (BitVec.ofNat 36 v)
    | .checkw w =>
      let v : FrameWord := BitVec.ofNat 32 w
      some (encode (.check (byte3 v) (byte2 v) (byte1 v) (byte0 v)))
    | .reading => some (encode .sync)
  else none

/-- A digit of base 16 or below, by its character. -/
def digit (c : Char) : Option Nat :=
  if '0' ≤ c ∧ c ≤ '9' then some (c.toNat - '0'.toNat)
  else if 'a' ≤ c ∧ c ≤ 'f' then some (c.toNat - 'a'.toNat + 10)
  else if 'A' ≤ c ∧ c ≤ 'F' then some (c.toNat - 'A'.toNat + 10)
  else none

/-- Digits of the base, the most significant first, after the value read so far. -/
def digits (base : Nat) : Nat → List Char → Option Nat
  | acc, [] => some acc
  | acc, c :: rest =>
    match digit c with
    | none => none
    | some d => if d < base then digits base (acc * base + d) rest else none

/-- A number: `0x` and hexadecimal digits, or decimal digits; at least one digit (R76). -/
def number : List Char → Option Nat
  | [] => none
  | ['0', 'x'] => none
  | '0' :: 'x' :: rest => digits 16 0 rest
  | c :: rest => digits 10 0 (c :: rest)

/-- A space or a tab. -/
def blank (c : Char) : Bool := c == ' ' || c == '\t'

/-- A text without its blanks at either end. -/
def trim (t : List Char) : List Char := ((t.dropWhile blank).reverse.dropWhile blank).reverse

/-- The parts of a text between commas: at least one. -/
def commaParts : List Char → List (List Char)
  | [] => [[]]
  | c :: rest =>
    if c = ',' then [] :: commaParts rest
    else
      match commaParts rest with
      | [] => [[c]]
      | part :: more => (c :: part) :: more

/-- Every part as a number. -/
def numbers : List (List Char) → Option (List Nat)
  | [] => some []
  | p :: rest =>
    match number (trim p), numbers rest with
    | some n, some ns => some (n :: ns)
    | _, _ => none

/-- The operands after a mnemonic: none, or numbers separated by commas. -/
def operands (t : List Char) : Option (List Nat) := if trim t = [] then some [] else numbers (commaParts t)

/-- The line a mnemonic and its operands make (R76). -/
def lineOf (mnemonic : List Char) (ops : List Nat) : Option AsmLine :=
  if mnemonic = ['S', 'Y', 'N', 'C'] then
    match ops with
    | [] => some .sync
    | _ => none
  else if mnemonic = ['C', 'H', 'E', 'C', 'K'] then
    match ops with
    | [hdr, hi, lo, ck] => some (.check hdr hi lo ck)
    | _ => none
  else if mnemonic = ['D', 'E', 'C', 'O', 'D', 'E'] then
    match ops with
    | [hi, lo] => some (.decode hi lo)
    | _ => none
  else if mnemonic = ['T', 'O', 'C', 'M'] then
    match ops with
    | [mm] => some (.tocm mm)
    | _ => none
  else if mnemonic = ['.', 'w', 'o', 'r', 'd'] then
    match ops with
    | [v] => some (.word v)
    | _ => none
  else if mnemonic = ['C', 'H', 'E', 'C', 'K', 'W'] then
    match ops with
    | [w] => some (.checkw w)
    | _ => none
  else if mnemonic = ['R', 'E', 'A', 'D', 'I', 'N', 'G'] then
    match ops with
    | [] => some .reading
    | _ => none
  else none

/-- What one line of text holds. -/
inductive Parsed where
  /-- Nothing but blanks and a comment. -/
  | empty
  | command (line : AsmLine)
  | error
  deriving DecidableEq, Repr

/-- One line of assembler: `;` starts a comment, and before it stands one command or nothing (R76). -/
def parse (text : List Char) : Parsed :=
  let body := trim (text.takeWhile fun c => !(c == ';'))
  if body = [] then .empty
  else
    match operands (body.dropWhile fun c => !blank c) with
    | none => .error
    | some ops =>
      match lineOf (body.takeWhile fun c => !blank c) ops with
      | none => .error
      | some line => .command line

/-- The word of one line of text; none where it is empty or an assembly error. -/
def assembleText (text : List Char) : Option CmdWord :=
  match parse text with
  | .empty => none
  | .error => none
  | .command line => assemble line

end Sys2Proof.Machine.Assembler
end

