-- ==== Sys2Proof/Machine/Ports.lean ====
section
/-! DEFINITION. The ports as functions of the state (30_encoding.md R77 to R79). -/

namespace Sys2Proof.Machine

/-- The input `rx_count` (R79): `Avail()`, saturating at `2 ^ RX_COUNT_W - 1`. -/
def rxCount (s : State) : Nat := min (avail s) (2 ^ Config.rxCountW - 1)

/-- The input `rx_data` (R79): the front byte, or any value when there is none (I17; log 25). -/
def rxData (s : State) : Byte := (peek s).getD (Config.freeRxData s.free)

/-- The block is working on SYNC in this cycle (R80). -/
def syncWorks (s : State) : Bool := s.busy && !waits s && decodeCommand s.cmd == .ok .sync

/-- The phases of SYNC in whose working edge a byte is popped: before the count is sampled, only if it is at least 4 (R80,
R91). -/
def popPhase (s : State) : Bool :=
  match s.phase with
  | .start => decide (Config.frameLen ≤ rxCount s)
  | .header => true
  | .high => true
  | .low => true
  | .checksum => true
  | .few => false
  | .mismatch => false
  | .full => false

/-- The output `rx_pop` (R77, R79): in this cycle a byte is removed at the edge. The transport keeps its contract and `rst`
is 0. -/
def rxPop (s : State) : Bool :=
  syncWorks s && keepsContract s && popPhase s && decide (1 ≤ rxCount s)

/-- The outputs of the block (R77). -/
structure Outputs where
  cmdReady : Bool
  rspValid : Bool
  rspStatus : BitVec 3
  rspReadingValid : Bool
  rspConsumed : BitVec 3
  rspData : DataWord
  rxPop : Bool
  deriving DecidableEq, Repr

/-- The outputs while the input `rst` has the given value (R78, R160): with `rst = 1` the block accepts nothing, pops
nothing and signals no result. -/
def outputs (rst : Bool) (s : State) : Outputs where
  cmdReady := !rst && !s.busy
  rspValid := !rst && s.rspValid
  rspStatus := s.rsp.status.code
  rspReadingValid := s.rsp.valid
  rspConsumed := s.rsp.consumed
  rspData := s.rsp.data
  rxPop := !rst && rxPop s

end Sys2Proof.Machine
end

