-- ==== Sys2Proof/Safety.lean ====
section
/-! DEFINITION. The terms the statements are made in: runs, the functional form of SYNC (40_frame_synchronizer.md R93), the
invariants of the state, and when a binary64 value is the nearest one. -/

namespace Sys2Proof.Machine

/-- `k` steps of the machine, stopping at the first fault or refusal. -/
def run (k : Nat) (s : State) : Host.Outcome State Fault Refusal := Host.Core.run Sys2Proof.core k s

/-- A safe step: no transport contract is broken in it, so the machine goes on (R155). -/
def SafeStep (s : State) : Prop := ∃ t, step s = .next t

/-- From `s` an operation has completed with the response `r` (R26, R78): the response is written, `ST` is `Idle`, the block is
not busy and signals the result; the transport's count, what the host sent and what is still to come are as before. The
stream and `F` are for each statement to say; `CMD` is unspecified from here on (R29). -/
structure Completes (s t : State) (r : Response) : Prop where
  rsp : t.rsp = r
  st : t.st = .idle
  busy : t.busy = false
  rspValid : t.rspValid = true
  claim : t.claim = s.claim
  sent : t.sent = s.sent
  inputs : t.inputs = s.inputs

/-- The number in a command word's `OP` and the number in its `OPERAND` (R68). -/
def opNumber (w : CmdWord) : Nat := w.toNat / 2 ^ 32
def operandNumber (w : CmdWord) : Nat := w.toNat % 2 ^ 32

/-- The word is legal, in numbers (R71): `OP` is 0 to 3 and every operand bit that must be zero is. -/
def LegalNumber (w : CmdWord) : Prop :=
  (opNumber w = 0 ∧ operandNumber w = 0) ∨ opNumber w = 1 ∨
    ((opNumber w = 2 ∨ opNumber w = 3) ∧ operandNumber w / 2 ^ 16 = 0)

/-- `n` SYNC commands presented one after the other (R76). -/
def syncs (n : Nat) : List Input := List.replicate n (.command 0x000000000#36)

/-- The result of the functional form of SYNC: the status, the bytes consumed, and the distance of a reading. -/
structure SyncResult where
  status : Status
  consumed : Nat
  distance : Option Nat
  deriving DecidableEq, Repr

/-- `syncFn` (R93), in the arithmetic of the rule on the stream sampled at step 1. -/
def syncFn : List Byte → SyncResult
  | s0 :: s1 :: s2 :: s3 :: _ =>
    if s0.toNat ≠ 0xFF then ⟨.framingError, 1, none⟩
    else if (s0.toNat + s1.toNat + s2.toNat) % 256 = s3.toNat then ⟨.validated, 4, some (s1.toNat <<< 8 ||| s2.toNat)⟩
    else ⟨.checksumError, 4, none⟩
  | _ => ⟨.insufficientData, 0, none⟩

/-- The stream has at most `RX_CAPACITY` bytes (R20). -/
def StreamBounded (s : State) : Prop := s.stream.length ≤ Config.rxCapacity

/-- A response that some completion or a reset may leave (R27, R73 to R75): `VALID` is 1 exactly with `Validated`, `CONSUMED`
is that of the status, a reading is a 16-bit distance, and the two reserved codes do not occur. -/
def Response.Legal (r : Response) : Prop :=
  match r.status with
  | .validated => r.valid = true ∧ r.consumed = 4#3 ∧ r.data.toNat < 65536
  | .insufficientData => r.valid = false ∧ r.consumed = 0#3
  | .framingError => r.valid = false ∧ r.consumed = 1#3
  | .checksumError => r.valid = false ∧ r.consumed = 4#3
  | .tooSoon => False
  | .degenerateCalibration => False
  | .complete => r.valid = false ∧ r.consumed = 0#3
  | .illegalCommand => r.valid = false ∧ r.consumed = 0#3

/-- SYNC in progress, by how far it has come (R25, R91): `ST`, the sampled bytes it still has in the stream, and what is in
`F`. -/
def SyncProgress (s : State) : Prop :=
  match s.phase with
  | .start => s.st = .seekHeader ∧ s.sampled = 0
  | .header => s.st = .haveEnoughBytes ∧ 4 ≤ s.sampled
  | .high => s.st = .haveEnoughBytes ∧ 3 ≤ s.sampled ∧ s.frame.header = 0xFF#8
  | .low => s.st = .haveEnoughBytes ∧ 2 ≤ s.sampled ∧ s.frame.header = 0xFF#8
  | .checksum => s.st = .haveEnoughBytes ∧ 1 ≤ s.sampled ∧ s.frame.header = 0xFF#8
  | .few => s.st = .seekHeader ∧ s.sampled < 4
  | .mismatch => s.st = .rejected
  | .full => s.st = verdict s ∧ s.frame.header = 0xFF#8

/-- `ST` and the sequencer agree with `busy` and `CMD` (R24, R25, R29): an idle block has `ST = Idle`; a busy one shows no
result; SYNC in progress is as its phase says; any other command in progress has `ST` other than `Idle`; the sampled bytes
that are not popped are in the stream; and no command has more edges to let pass than `LAT_MAX` allows. -/
structure Sequenced (s : State) : Prop where
  idle : s.busy = false → s.st = .idle ∧ s.phase = .start ∧ s.slack = 0 ∧ s.sampled = 0
  busy : s.busy = true → s.rspValid = false
  other : s.busy = true → decodeCommand s.cmd ≠ .ok .sync → s.st ≠ .idle ∧ s.phase = .start ∧ s.sampled = 0
  sync : s.busy = true → decodeCommand s.cmd = .ok .sync → SyncProgress s
  sampled : s.sampled ≤ s.stream.length
  bounded : s.slack ≤ Config.latExtra

/-- The next step is a clock edge with `rst = 0` at which no command is accepted (R78). -/
def AtClockEdge (s : State) : Prop :=
  match s.inputs with
  | [] => True
  | .clock :: _ => True
  | .command _ :: _ => s.busy = true
  | .start _ :: _ => s.busy = true
  | .arrive _ :: _ => False
  | .write _ :: _ => False
  | .reset :: _ => False
  | .miscount _ :: _ => False

/-- An input of the transport's or the clock's: a byte arrives, or an edge passes without a command (R46, R78). -/
def Input.Passive : Input → Prop
  | .arrive _ => True
  | .clock => True
  | .write _ => False
  | .command _ => False
  | .start _ => False
  | .reset => False
  | .miscount _ => False

/-- The pattern `b` is a binary64 number strictly nearer to `x` than every other binary64 number is, so that every rounding to
nearest gives it, whatever the rule for ties (R126). -/
def StrictlyNearest (x : ℚ) (b : DataWord) : Prop :=
  ∃ v, Binary64.value b = some v ∧ ∀ b' v', Binary64.value b' = some v' → v' ≠ v → |v - x| < |v' - x|

end Sys2Proof.Machine
end

