-- ==== Sys2Proof/Certificates/Slice0/Obligations.lean ====
section
/-! DEFINITION. The statements for the provers, from the numbered rules of spec/. -/

open Sys2Proof Sys2Proof.Machine

/-! ## Encoding (30_encoding.md) -/

/-- R68 to R71: the decoder gives back every command from its word, each operand at every value. -/
def Obligations.EncodeThenDecode : Prop := ∀ i : Instr, decodeCommand (encode i) = .ok i

/-- R68 to R71: a word that decodes to a command is that command's word, so each legal word has one meaning. -/
def Obligations.DecodeThenEncode : Prop := ∀ (w : CmdWord) (i : Instr), decodeCommand w = .ok i → encode i = w

/-- R71: `Decode(cmd)`, each field as a number; what is not one of the four commands is illegal, by name. -/
def Obligations.DecodeFollowsPseudocode : Prop :=
  ∀ w : CmdWord,
    decodeCommand w =
      if opNumber w = 0 ∧ operandNumber w = 0 then .ok .sync
      else if opNumber w = 1 then
        .ok (.check (BitVec.ofNat 8 (operandNumber w / 2 ^ 24)) (BitVec.ofNat 8 (operandNumber w / 2 ^ 16))
          (BitVec.ofNat 8 (operandNumber w / 2 ^ 8)) (BitVec.ofNat 8 (operandNumber w)))
      else if opNumber w = 2 ∧ operandNumber w / 2 ^ 16 = 0 then
        .ok (.decode (BitVec.ofNat 8 (operandNumber w / 2 ^ 8)) (BitVec.ofNat 8 (operandNumber w)))
      else if opNumber w = 3 ∧ operandNumber w / 2 ^ 16 = 0 then .ok (.tocm (BitVec.ofNat 16 (operandNumber w)))
      else .illegal (if 4 ≤ opNumber w then .reservedOp else .nonzeroField)

/-- R69, R70, R81: a word that decodes to a command is covered by that command's row of the opcode table and by no other
row; a word that does not is covered by none. -/
def Obligations.CommandWordHasOneRow : Prop :=
  ∀ w : CmdWord,
    (∀ i, decodeCommand w = .ok i → ∀ r ∈ commandTable, (r.covers w = true ↔ r = i.row)) ∧
    ((∃ why, decodeCommand w = .illegal why) ↔ legalWord w = false)

/-- R69, R70: a few words written out from the encoding tables decode to what they stand for. -/
def Obligations.TableWordsDecode : Prop :=
  decodeCommand 0x000000000#36 = .ok .sync ∧
  decodeCommand 0x1FF019090#36 = .ok (.check 0xFF#8 0x01#8 0x90#8 0x90#8) ∧
  decodeCommand 0x20000A5C3#36 = .ok (.decode 0xA5#8 0xC3#8) ∧
  decodeCommand 0x300008001#36 = .ok (.tocm 0x8001#16) ∧
  decodeCommand 0x000000001#36 = .illegal .nonzeroField ∧
  decodeCommand 0x200010000#36 = .illegal .nonzeroField ∧
  decodeCommand 0x380000000#36 = .illegal .nonzeroField ∧
  decodeCommand 0x400000000#36 = .illegal .reservedOp

/-- R76: the word of each assembler line, as a number; a line with a number out of range is an error: a byte above 255, `mm`
above 65535, a `.word` of more than 36 bits, a `CHECKW` word of more than 32. -/
def Obligations.AssemblerWords : Prop :=
  (Assembler.assemble .sync = some 0#36 ∧ Assembler.assemble .reading = some 0#36) ∧
  (∀ hdr hi lo ck : Nat, hdr < 256 → hi < 256 → lo < 256 → ck < 256 →
    Assembler.assemble (.check hdr hi lo ck) =
      some (BitVec.ofNat 36 (2 ^ 32 + hdr * 2 ^ 24 + hi * 2 ^ 16 + lo * 2 ^ 8 + ck))) ∧
  (∀ hi lo : Nat, hi < 256 → lo < 256 →
    Assembler.assemble (.decode hi lo) = some (BitVec.ofNat 36 (2 * 2 ^ 32 + hi * 2 ^ 8 + lo))) ∧
  (∀ mm : Nat, mm < 65536 → Assembler.assemble (.tocm mm) = some (BitVec.ofNat 36 (3 * 2 ^ 32 + mm))) ∧
  (∀ v : Nat, v < 2 ^ 36 → Assembler.assemble (.word v) = some (BitVec.ofNat 36 v)) ∧
  (∀ w : Nat, w < 2 ^ 32 → Assembler.assemble (.checkw w) = some (BitVec.ofNat 36 (2 ^ 32 + w))) ∧
  (∀ hdr hi lo ck : Nat, 256 ≤ hdr ∨ 256 ≤ hi ∨ 256 ≤ lo ∨ 256 ≤ ck →
    Assembler.assemble (.check hdr hi lo ck) = none) ∧
  (∀ hi lo : Nat, 256 ≤ hi ∨ 256 ≤ lo → Assembler.assemble (.decode hi lo) = none) ∧
  (∀ mm : Nat, 65536 ≤ mm → Assembler.assemble (.tocm mm) = none) ∧
  (∀ v : Nat, 2 ^ 36 ≤ v → Assembler.assemble (.word v) = none) ∧
  (∀ w : Nat, 2 ^ 32 ≤ w → Assembler.assemble (.checkw w) = none) ∧
  (∀ line : AsmLine, line.wellFormed = false → Assembler.assemble line = none)

/-- R60, R70: the frame word has the byte that arrives first in its high bits, and a CHECK word made of it carries the four
bytes of the frame. -/
def Obligations.FrameWordIsWireOrder : Prop :=
  ∀ f : Frame,
    f.toWord.toNat = f.header.toNat * 2 ^ 24 + f.high.toNat * 2 ^ 16 + f.low.toNat * 2 ^ 8 + f.checksum.toNat ∧
    Frame.ofWord f.toWord = f ∧
    decodeCommand (BitVec.ofNat 36 (2 ^ 32 + f.toWord.toNat)) = .ok (.check f.header f.high f.low f.checksum)

/-- R72, R73: the packed response has each field at its bits, and the status bits are the code of the table for each of the
eight statuses. -/
def Obligations.PackedResponseFields : Prop :=
  ∀ r : Response,
    r.pack.extractLsb' 68 3 =
      (match r.status with
      | .validated => 0b000#3
      | .insufficientData => 0b001#3
      | .framingError => 0b010#3
      | .checksumError => 0b011#3
      | .tooSoon => 0b100#3
      | .degenerateCalibration => 0b101#3
      | .complete => 0b110#3
      | .illegalCommand => 0b111#3) ∧
    r.pack.getLsbD 67 = r.valid ∧
    r.pack.extractLsb' 64 3 = r.consumed ∧ r.pack.extractLsb' 0 64 = r.data

/-! ## The pure functions (41_checksum_validator.md, 42_distance_decoder.md) -/

/-- R111: `isValid` compares the exact sum modulo 256 with the checksum, and two byte additions that wrap give the same. -/
def Obligations.ChecksumIsSumModulo256 : Prop :=
  ∀ header high low checksum : Byte,
    (isValid header high low checksum = true ↔
      (header.toNat + high.toNat + low.toNat) % 256 = checksum.toNat) ∧
    (isValid header high low checksum = true ↔ header + high + low = checksum)

/-- R113: the header is not tested: the zero frame passes, and every header and value bytes have a checksum that does. -/
def Obligations.HeaderIsNotTested : Prop :=
  isValid 0x00#8 0x00#8 0x00#8 0x00#8 = true ∧
  ∀ header high low : Byte, ∃ checksum, isValid header high low checksum = true

/-- R114: exactly one checksum is valid for three given bytes, their sum modulo 256; the other 255 are not. -/
def Obligations.OneChecksumIsValid : Prop :=
  ∀ header high low : Byte,
    (∀ checksum, isValid header high low checksum = true ↔
      checksum.toNat = (header.toNat + high.toNat + low.toNat) % 256) ∧
    (Finset.univ.filter fun checksum : Byte => isValid header high low checksum = false).card = 255

/-- R116: changing exactly one of `high`, `low` and `checksum` of a valid frame is always detected; two opposite changes of
`high` and `low`, or the same change of `high` and `checksum`, never are. -/
def Obligations.SingleByteChangeIsDetected : Prop :=
  ∀ header high low checksum : Byte, isValid header high low checksum = true →
    (∀ b, b ≠ high → isValid header b low checksum = false) ∧
    (∀ b, b ≠ low → isValid header high b checksum = false) ∧
    (∀ b, b ≠ checksum → isValid header high low b = false) ∧
    (∀ d, isValid header (high + d) (low - d) checksum = true) ∧
    (∀ d, isValid header (high + d) low (checksum + d) = true)

/-- R66: the distance is `{high, low}`; the bytes do not overlap, so joining them is adding them. -/
def Obligations.DistanceIsBigEndian : Prop :=
  ∀ high low : Byte,
    (distance high low).toNat = high.toNat <<< 8 ||| low.toNat ∧
    (distance high low).toNat = 256 * high.toNat + low.toNat

/-! ## CHECK, DECODE, TOCM and the illegal words: what they leave -/

/-- R112: CHECK completes in every state; its answer is in `DATA`; it makes no transport access. -/
def Obligations.CheckCompletes : Prop :=
  ∀ (header high low checksum : Byte) (s : State), ∃ t,
    exec (.check header high low checksum) s = .next t ∧
    Completes s t ⟨.complete, false, 0#3,
      if (header.toNat + high.toNat + low.toNat) % 256 = checksum.toNat then 1#64 else 0#64⟩ ∧
    t.stream = s.stream

/-- R122, R124: DECODE completes in every state with `256 * high + low`, without a range test; it makes no
transport access. -/
def Obligations.DecodeCompletes : Prop :=
  ∀ (high low : Byte) (s : State), ∃ t,
    exec (.decode high low) s = .next t ∧
    Completes s t ⟨.complete, false, 0#3, BitVec.ofNat 64 (256 * high.toNat + low.toNat)⟩ ∧
    t.stream = s.stream

/-- R125, R126: TOCM completes in every state with the binary64 number nearest to `mm / 10`, nearer than any other; it makes
no transport access. -/
def Obligations.TocmCompletesWithNearest : Prop :=
  ∀ (mm : Millimetres) (s : State), ∃ t c,
    exec (.tocm mm) s = .next t ∧ Completes s t ⟨.complete, false, 0#3, c⟩ ∧ StrictlyNearest ((mm.toNat : ℚ) / 10) c ∧
    t.stream = s.stream

/-- R126: `mm / 10` is exact exactly when `mm mod 5 = 0`; the result is `+0.0` for 0, and otherwise a positive normal number of
at least a tenth. -/
def Obligations.TocmExactAndNormal : Prop :=
  ∀ mm : Millimetres,
    (Binary64.value (Binary64.centimetres mm) = some ((mm.toNat : ℚ) / 10) ↔ mm.toNat % 5 = 0) ∧
    (mm = 0#16 → Binary64.centimetres mm = 0#64) ∧
    (mm ≠ 0#16 →
      Binary64.signBit (Binary64.centimetres mm) = false ∧
      0 < Binary64.expField (Binary64.centimetres mm) ∧ Binary64.expField (Binary64.centimetres mm) < 2047 ∧
      ∃ v, Binary64.value (Binary64.centimetres mm) = some v ∧ 1 / 10 ≤ v)

/-- R142: a reserved `OP`, or a nonzero bit that must be zero, completes with `IllegalCommand`; no transport access is made
and `DATA` is any value. -/
def Obligations.IllegalWordCompletes : Prop :=
  ∀ (w : CmdWord) (s : State) (rest : List Input),
    4 ≤ opNumber w ∨ (opNumber w = 0 ∧ operandNumber w ≠ 0) ∨
      ((opNumber w = 2 ∨ opNumber w = 3) ∧ operandNumber w / 2 ^ 16 ≠ 0) →
    s.busy = false → s.inputs = .command w :: rest →
    ∃ t d, step s = .next t ∧ Completes (setInputs rest s) t ⟨.illegalCommand, false, 0#3, d⟩ ∧ t.stream = s.stream

/-- R115, R127: the response of CHECK, DECODE and TOCM depends on the operands only. -/
def Obligations.PureCommandsIgnoreState : Prop :=
  ∀ (i : Instr) (s s' : State), i ≠ .sync →
    ∃ t t', exec i s = .next t ∧ exec i s' = .next t' ∧ t.rsp = t'.rsp

/-! ## SYNC (40_frame_synchronizer.md) -/

/-- R92: with fewer than four bytes, whatever they are, SYNC answers `InsufficientData` and consumes nothing. -/
def Obligations.SyncInsufficientData : Prop :=
  ∀ s : State, keepsContract s = true → s.stream.length < 4 →
    ∃ t d, exec .sync s = .next t ∧ Completes s t ⟨.insufficientData, false, 0#3, d⟩ ∧ t.stream = s.stream

/-- R100: with at least four bytes and a front byte that is not `0xFF`, SYNC removes exactly that byte and answers
`FramingError`, whatever follows; with fewer bytes the count decides first. -/
def Obligations.SyncFramingError : Prop :=
  ∀ (s : State) (b : Byte) (rest : List Byte), s.claim = none → s.stream = b :: rest → b ≠ 0xFF#8 →
    (3 ≤ rest.length →
      ∃ t d, exec .sync s = .next t ∧ Completes s t ⟨.framingError, false, 1#3, d⟩ ∧ t.stream = rest) ∧
    (rest.length < 3 →
      ∃ t d, exec .sync s = .next t ∧ Completes s t ⟨.insufficientData, false, 0#3, d⟩ ∧ t.stream = s.stream)

/-- R96: a frame whose checksum fails is removed whole, and the next byte is the one that followed it. -/
def Obligations.SyncChecksumError : Prop :=
  ∀ (s : State) (high low checksum : Byte) (rest : List Byte), s.claim = none →
    s.stream = 0xFF#8 :: high :: low :: checksum :: rest →
    (0xFF + high.toNat + low.toNat) % 256 ≠ checksum.toNat →
    ∃ t d, exec .sync s = .next t ∧ Completes s t ⟨.checksumError, false, 4#3, d⟩ ∧ t.stream = rest

/-- R97, R106: four bytes that begin with `0xFF` and satisfy the checksum are a reading of `256 * high + low`, whatever the
value. -/
def Obligations.SyncValidated : Prop :=
  ∀ (s : State) (high low checksum : Byte) (rest : List Byte), s.claim = none →
    s.stream = 0xFF#8 :: high :: low :: checksum :: rest →
    (0xFF + high.toNat + low.toNat) % 256 = checksum.toNat →
    ∃ t, exec .sync s = .next t ∧
      Completes s t ⟨.validated, true, 4#3, BitVec.ofNat 64 (256 * high.toNat + low.toNat)⟩ ∧ t.stream = rest

/-- R95: a frame read takes the four front bytes into `F`, so `F.header` is `0xFF`. That `F` still holds them after the attempt
is the model's choice (log 7; R23 lets a model hold any value there). -/
def Obligations.FrameReadFillsF : Prop :=
  ∀ (s : State) (high low checksum : Byte) (rest : List Byte), s.claim = none →
    s.stream = 0xFF#8 :: high :: low :: checksum :: rest →
    ∃ t, exec .sync s = .next t ∧ t.frame = ⟨0xFF#8, high, low, checksum⟩

/-- R93: SYNC, written step by step, is `syncFn` on the stream: the same status, the same number of bytes removed from the
front, the same distance. -/
def Obligations.SyncEqualsFunctionalForm : Prop :=
  ∀ s : State, s.claim = none →
    ∃ t, exec .sync s = .next t ∧
      t.rsp.status = (syncFn s.stream).status ∧
      t.rsp.consumed.toNat = (syncFn s.stream).consumed ∧
      t.stream = s.stream.drop (syncFn s.stream).consumed ∧
      (t.rsp.valid = true ↔ ∃ n, (syncFn s.stream).distance = some n) ∧
      ∀ n, (syncFn s.stream).distance = some n → t.rsp.data.toNat = n

/-- R48, R155: SYNC has no meaning exactly when the transport breaks its contract while it runs; it then ends in the model-only
fault. A transport that claims a count of its own (log 13) breaks it at once where the count is not that of its bytes, and
otherwise at the first pop, after which the claim is one too many. -/
def Obligations.SyncFaultsExactlyOnBrokenContract : Prop :=
  ∀ s : State, exec .sync s = .fault .transportContract ↔
    ∃ n, s.claim = some n ∧ (n ≠ s.stream.length ∨ 4 ≤ s.stream.length)

/-- R99: a SYNC that sees four bytes or more removes at least one; so from `L` bytes with no arrivals at most `L - 3` SYNC
operations give another result than `InsufficientData`. -/
def Obligations.SyncMakesProgress : Prop :=
  (∀ s t : State, 4 ≤ s.stream.length → exec .sync s = .next t →
    t.stream.length < s.stream.length) ∧
  ∀ (s : State) (n : Nat) (rest : List Input), s.busy = false → s.claim = none →
    s.inputs = syncs (n + 1) ++ rest → s.stream.length - 3 ≤ n →
    ∃ t u, run n s = .next t ∧ t.stream.length < 4 ∧ run (n + 1) s = .next u ∧ u.rsp.status = .insufficientData

/-- R101: `k` noise bytes other than `0xFF` before a valid frame cost `k` `FramingError`s, one byte each; the next SYNC gives
the reading. -/
def Obligations.ResynchronizationBound : Prop :=
  ∀ (s : State) (noise tail : List Byte) (high low checksum : Byte) (rest : List Input),
    s.busy = false → s.claim = none →
    (∀ b ∈ noise, b ≠ 0xFF#8) → checksum.toNat = (0xFF + high.toNat + low.toNat) % 256 →
    s.stream = noise ++ 0xFF#8 :: high :: low :: checksum :: tail →
    s.inputs = syncs (noise.length + 1) ++ rest →
    (∀ k, k < noise.length → ∃ t, run (k + 1) s = .next t ∧
      t.rsp.status = .framingError ∧ t.rsp.valid = false ∧ t.rsp.consumed = 1#3 ∧
      t.stream = noise.drop (k + 1) ++ 0xFF#8 :: high :: low :: checksum :: tail) ∧
    ∃ t, run (noise.length + 1) s = .next t ∧ t.rsp.status = .validated ∧ t.rsp.valid = true ∧
      t.rsp.data = BitVec.ofNat 64 (256 * high.toNat + low.toNat) ∧ t.stream = tail

/-- R102: SYNC's outcome depends only on whether four bytes are there and on those four; the bytes removed are a prefix of
length `CONSUMED`. -/
def Obligations.SyncDependsOnFrontOnly : Prop :=
  ∀ s s' : State, s.claim = none → s'.claim = none →
    (s.stream.length < 4 ∧ s'.stream.length < 4) ∨
      (4 ≤ s.stream.length ∧ 4 ≤ s'.stream.length ∧ s.stream.take 4 = s'.stream.take 4) →
    ∃ t t', exec .sync s = .next t ∧ exec .sync s' = .next t' ∧
      t.rsp.status = t'.rsp.status ∧ t.rsp.valid = t'.rsp.valid ∧ t.rsp.consumed = t'.rsp.consumed ∧
      (t.rsp.valid = true → t.rsp.data = t'.rsp.data) ∧
      t.stream = s.stream.drop t.rsp.consumed.toNat ∧ t'.stream = s'.stream.drop t'.rsp.consumed.toNat

/-- R168: a `0xFF` before a valid frame swallows it: the four bytes read pass only if the doubled header happens to sum to the
low byte, and otherwise the last byte of the frame is left at the front. -/
def Obligations.NoiseHeaderSwallowsFrame : Prop :=
  ∀ (s : State) (high low checksum : Byte) (tail : List Byte), s.claim = none →
    checksum.toNat = (0xFF + high.toNat + low.toNat) % 256 →
    s.stream = 0xFF#8 :: 0xFF#8 :: high :: low :: checksum :: tail →
    ∃ t, exec .sync s = .next t ∧ t.stream = checksum :: tail ∧
      t.rsp.status = (if (0xFF + 0xFF + high.toNat) % 256 = low.toNat then .validated else .checksumError)

/-! ## The stream and the response, over all steps (10_state.md, 20_memory.md) -/

/-- R42 to R44: the three primitives of a transport that keeps its contract. -/
def Obligations.TransportPrimitives : Prop :=
  ∀ s : State, s.claim = none →
    avail s = s.stream.length ∧
    (s.stream = [] → peek s = none ∧ pop s = none) ∧
    ∀ b rest, s.stream = b :: rest → peek s = some b ∧ pop s = some (b, { s with stream := rest })

/-- R46, R53, R54: an arrival goes to the back of a stream with room. At the capacity one of the bytes is lost, the order stays
and the count does not decrease; which byte is open, but it is none of those a running SYNC has sampled (log 10). -/
def Obligations.ArrivalAtBack : Prop :=
  ∀ (s : State) (b : Byte) (rest : List Input), s.inputs = .arrive b :: rest →
    (s.stream.length < Config.rxCapacity →
      step s = .next { s with inputs := rest, stream := s.stream ++ [b] }) ∧
    (Config.rxCapacity ≤ s.stream.length →
      ∃ k, min s.sampled s.stream.length ≤ k ∧ k ≤ s.stream.length ∧
        step s = .next { s with inputs := rest, stream := (s.stream ++ [b]).eraseIdx k, lost := s.lost + 1 })

/-- R21, R47, R161: only an arrival and the block's own pops change the stream. In any step a byte arrives at its back (or, at
the capacity, one byte is lost; log 10), or the stream loses a prefix: none, but for a clock edge of a running SYNC, which
pops at most one byte, and a SYNC that runs as one step, which takes what `syncFn` takes. So a reset, the host and an idle edge
leave it alone. -/
def Obligations.StreamChangesOnlyByArrivalAndPop : Prop :=
  ∀ s t : State, step s = .next t →
    (∃ b rest, s.inputs = .arrive b :: rest ∧
      (t.stream = s.stream ++ [b] ∨
        (Config.rxCapacity ≤ s.stream.length ∧ t.stream.length = s.stream.length ∧ t.stream.Sublist (s.stream ++ [b])))) ∨
    (∃ k, k ≤ s.stream.length ∧ t.stream = s.stream.drop k ∧
      (k ≠ 0 →
        (k = 1 ∧ s.busy = true ∧ decodeCommand s.cmd = .ok .sync ∧ AtClockEdge s) ∨
        (k = (syncFn s.stream).consumed ∧ s.busy = false ∧ ∃ rest, s.inputs = .command 0#36 :: rest)))

/-- R78 part 4, R147, R154: in any step the response is kept, unless an operation completes in it or it is a reset. -/
def Obligations.ResponseKeptUntilCompletion : Prop :=
  ∀ s t : State, step s = .next t →
    t.rsp = s.rsp ∨ (∃ rest, s.inputs = .reset :: rest) ∨
    (t.busy = false ∧ t.rspValid = true ∧ (s.busy = true ∨ ∃ w rest, s.inputs = .command w :: rest))

/-- R27: in any step that changes the response, `VALID` becomes 1 exactly when the operation is SYNC and its status is
`Validated`. -/
def Obligations.ValidOnlyByValidatedSync : Prop :=
  ∀ s t : State, step s = .next t → t.rsp ≠ s.rsp →
    (t.rsp.valid = true ↔
      t.rsp.status = .validated ∧
        ((s.busy = true ∧ decodeCommand s.cmd = .ok .sync) ∨
          (s.busy = false ∧ ∃ rest, s.inputs = .command 0#36 :: rest)))

/-- R22: in any step only SYNC writes `F`, and only with a header byte of `0xFF`; a reset leaves it unspecified (R34). That `F`
otherwise keeps what it held is the model's choice (log 7; R23 lets a model hold any value there). -/
def Obligations.OnlySyncWritesFrame : Prop :=
  ∀ s t : State, step s = .next t →
    t.frame = s.frame ∨ (∃ rest, s.inputs = .reset :: rest) ∨
    (((s.busy = true ∧ decodeCommand s.cmd = .ok .sync) ∨ (s.busy = false ∧ ∃ rest, s.inputs = .command 0#36 :: rest)) ∧
      (Sequenced s → t.frame.header = 0xFF#8))

/-- R147, R45: what the transport and the host do besides commands and clock edges writes no register; `Write` only sends, and
no other step sends anything, so the block itself never calls `Write`. -/
def Obligations.OutsideWritesNoRegister : Prop :=
  (∀ s t : State, step s = .next t →
    t.sent = s.sent ∨ ∃ b rest, s.inputs = .write b :: rest ∧ t.sent = s.sent ++ [b]) ∧
  ∀ (s : State) (rest : List Input),
    (∀ b, s.inputs = .arrive b :: rest → ∃ t, step s = .next t ∧
      t.rsp = s.rsp ∧ t.frame = s.frame ∧ t.st = s.st ∧ t.cmd = s.cmd ∧ t.busy = s.busy ∧ t.rspValid = s.rspValid ∧
      t.sent = s.sent) ∧
    (∀ b, s.inputs = .write b :: rest → step s = .next { s with inputs := rest, sent := s.sent ++ [b] }) ∧
    (∀ c, s.inputs = .miscount c :: rest → step s = .next { s with inputs := rest, claim := c })

/-- R144: the one status of a command is chosen by the first test that decides: decode, count, header, checksum. -/
def Obligations.FirstDecidingTestGivesStatus : Prop :=
  ∀ (s : State) (w : CmdWord) (rest : List Input), s.busy = false → s.claim = none →
    s.inputs = .command w :: rest →
    ∃ t, step s = .next t ∧ t.rspValid = true ∧
      (¬ LegalNumber w → t.rsp.status = .illegalCommand) ∧
      (LegalNumber w → opNumber w ≠ 0 → t.rsp.status = .complete) ∧
      (LegalNumber w → opNumber w = 0 →
        (s.stream.length < 4 → t.rsp.status = .insufficientData) ∧
        ∀ c0 c1 c2 c3 l, s.stream = c0 :: c1 :: c2 :: c3 :: l →
          t.rsp.status =
            if c0 ≠ 0xFF#8 then .framingError
            else if isValid c0 c1 c2 c3 = false then .checksumError
            else .validated)

/-! ## Invariants every step keeps -/

/-- R20: the stream never holds more than `RX_CAPACITY` bytes. -/
def Obligations.StepKeepsStreamBounded : Prop :=
  ∀ s t : State, StreamBounded s → step s = .next t → StreamBounded t

/-- R27, R73, R75: the response is always one that a completion or a reset leaves: `VALID` and `CONSUMED` belong to the status,
a reading has 16 bits, and the two reserved codes are never written. -/
def Obligations.StepKeepsResponseLegal : Prop :=
  ∀ s t : State, s.rsp.Legal → step s = .next t → t.rsp.Legal

/-- R24, R25, R29: `ST`, `F` and the sequencer stay consistent with `busy` and `CMD`; the bytes a SYNC has sampled and not popped
are in the stream. The fields `phase`, `slack` and `sampled`, and that `ST` is other than `Idle` while a command other than
SYNC runs, are the model's (logs 10, 12 and 16). -/
def Obligations.StepKeepsSequenced : Prop :=
  ∀ s t : State, Sequenced s → step s = .next t → Sequenced t

/-- R34: the state after reset meets the three invariants. Its stream is the model's choice (log 2). -/
def Obligations.ResetMeetsInvariants : Prop :=
  StreamBounded State.reset ∧ State.reset.rsp.Legal ∧ Sequenced State.reset

/-- R48, R104, R155: from a consistent state every step goes on, but for a SYNC whose transport breaks its contract; no step is
refused. -/
def Obligations.StepStopsOnlyOnBrokenContract : Prop :=
  ∀ s : State, Sequenced s →
    SafeStep s ∨
    (step s = .fault .transportContract ∧ s.claim ≠ none ∧
      ((s.busy = true ∧ decodeCommand s.cmd = .ok .sync) ∨
        (s.busy = false ∧ ∃ rest, s.inputs = .command 0#36 :: rest ∨ s.inputs = .start 0#36 :: rest)))

/-! ## Steps, acceptance, ports and reset (30_encoding.md, 70_reset_and_hazards.md) -/

/-- R31, R57, R78: when a ready block is presented a word that decodes to a command, the step latches the word and is that
command's operation on the latched state, and nothing else. -/
def Obligations.StepRunsPresentedCommand : Prop :=
  ∀ (s : State) (w : CmdWord) (i : Instr) (rest : List Input),
    s.busy = false → s.inputs = .command w :: rest → decodeCommand w = .ok i →
    step s = exec i { s with inputs := rest, cmd := w, busy := true, rspValid := false }

/-- R78 parts 1 and 2, R165: a word presented at an edge is accepted exactly when `cmd_ready` is 1; then it is in `CMD` and the
block is busy, not complete. Otherwise it stays presented. Where the word is SYNC and the transport breaks its contract at that
edge, the operation has no meaning and the step is the fault (R48; log 13). -/
def Obligations.AcceptedExactlyWhenReady : Prop :=
  ∀ (s : State) (w : CmdWord) (rest : List Input), s.inputs = .start w :: rest →
    ((outputs false s).cmdReady = true → (decodeCommand w = .ok .sync → avail s = s.stream.length) →
      ∃ t, step s = .next t ∧ t.inputs = rest ∧ t.cmd = w ∧ t.busy = true ∧ t.rspValid = false ∧
        t.rsp = s.rsp ∧ t.stream = s.stream ∧ t.frame = s.frame) ∧
    ((outputs false s).cmdReady = true → decodeCommand w = .ok .sync → avail s ≠ s.stream.length →
      step s = .fault .transportContract) ∧
    ((outputs false s).cmdReady = false → ∀ t, step s = .next t → t.inputs = s.inputs) ∧
    (outputs true s).cmdReady = false

/-- R78 part 3: after an edge, `rsp_valid` is 1 exactly when an operation completed at that edge. -/
def Obligations.PulseMarksCompletion : Prop :=
  ∀ s t : State, edge s = .next t → (t.rspValid = true ↔ s.busy = true ∧ t.busy = false)

/-- R80, R104, R172: an accepted command completes within `LAT_MAX` edges without any arrival, and a word presented meanwhile
is still presented. Which edges an implementation lets pass is the model's form of the latency (log 12). -/
def Obligations.CompletesWithinLatMax : Prop :=
  ∀ s : State, Sequenced s → s.busy = true → s.claim = none →
    (s.inputs = [] ∨ ∃ w rest, s.inputs = .command w :: rest ∨ s.inputs = .start w :: rest) →
    ∃ n t, 1 ≤ n ∧ n ≤ Config.latMax ∧ run n s = .next t ∧ t.busy = false ∧ t.rspValid = true ∧
      t.inputs = s.inputs

/-- R31, R80: run edge by edge with no arrival, a command accepted by a ready block ends, after at least one and at most
`LAT_MAX` edges after its acceptance, in exactly the state its atomic operation ends in, and is busy until then. A SYNC whose
transport breaks its contract ends in the fault both ways; every other command completes both ways whatever the transport
counts. -/
def Obligations.EdgesRefineAtomicOperation : Prop :=
  ∀ (s : State) (w : CmdWord), s.busy = false →
    (∃ n, 1 ≤ n ∧ n ≤ Config.latMax ∧
      run (n + 1) { s with inputs := [.start w] } = run 1 { s with inputs := [.command w] } ∧
      (decodeCommand w ≠ .ok .sync ∨ s.claim = none →
        (∃ t, run 1 { s with inputs := [.command w] } = .next t) ∧
        ∀ m, m < n → ∃ t, run (m + 1) { s with inputs := [.start w] } = .next t ∧ t.busy = true))

/-- R53, R105: an arrival does not change what the next edge of a running SYNC does. Into a stream with room, once the count is
sampled or is at least four, the edge is the same and the byte stands at the back. Once the count is sampled, the edge is the
same at the capacity too: whichever byte is lost there (log 10), it is none of those sampled, and the edge removes the same
`k` of these. Before the sample, an arrival that makes fewer than four bytes four, or one at the capacity, may change the
attempt: it is a different count, or different bytes, that are sampled. -/
def Obligations.ArrivalCommutesWithEdge : Prop :=
  ∀ (s : State) (b : Byte), Sequenced s → s.busy = true → decodeCommand s.cmd = .ok .sync → s.claim = none →
    (s.stream.length < Config.rxCapacity → (s.phase = .start → 4 ≤ s.stream.length) →
      ∃ t n, edge s = .next t ∧ (s.phase ≠ .start → n = t.sampled) ∧
        edge { s with stream := s.stream ++ [b] } = .next { t with stream := t.stream ++ [b], sampled := n }) ∧
    (s.phase ≠ .start →
      ∃ t k, edge s = .next t ∧ k ≤ s.sampled ∧ t.stream = s.stream.drop k ∧
        (arrive b s).stream.take s.sampled = s.stream.take s.sampled ∧
        edge (arrive b s) = .next { t with stream := (arrive b s).stream.drop k, lost := (arrive b s).lost })

/-- R53, R105: with the reference schedule of R80, bytes that arrive between the pops of a frame read change neither its outcome
nor the bytes it reads; they stand behind what the attempt left, in arrival order. The stream has room for each of them when
it arrives. -/
def Obligations.ArrivalsDuringReadStayBehind : Prop :=
  ∀ (s : State) (high low checksum : Byte) (rest a1 a2 a3 : List Byte),
    s.busy = true → s.slack = 0 → s.phase = .start → s.cmd = 0#36 → s.claim = none →
    s.stream = 0xFF#8 :: high :: low :: checksum :: rest →
    rest.length + 3 + a1.length ≤ Config.rxCapacity →
    rest.length + 2 + a1.length + a2.length ≤ Config.rxCapacity →
    rest.length + 1 + a1.length + a2.length + a3.length ≤ Config.rxCapacity →
    s.inputs = .clock :: a1.map .arrive ++ .clock :: a2.map .arrive ++ .clock :: a3.map .arrive ++ [.clock] →
    ∃ t u, run (4 + a1.length + a2.length + a3.length) s = .next t ∧ exec .sync s = .next u ∧
      t.stream = rest ++ a1 ++ a2 ++ a3 ∧ t.rsp = u.rsp ∧ t.frame = u.frame ∧ t.busy = false

/-- R161, I5: a reset abandons a SYNC that is still running after any number of edges without a response; what it had removed is
a prefix of the stream, no longer than what the completed SYNC would have removed. How many edges an implementation lets pass
is open (log 12). -/
def Obligations.ResetAbandonsSync : Prop :=
  ∀ (s u : State) (n : Nat), s.busy = false → s.claim = none →
    run (n + 1) { s with inputs := .start 0#36 :: List.replicate n .clock ++ [.reset] } = .next u → u.busy = true →
    ∃ t k, run (n + 2) { s with inputs := .start 0#36 :: List.replicate n .clock ++ [.reset] } = .next t ∧
      k ≤ (syncFn s.stream).consumed ∧ t.stream = s.stream.drop k ∧
      t.busy = false ∧ t.st = .idle ∧ t.rspValid = false ∧ t.rsp = ⟨.insufficientData, false, 0#3, 0#64⟩

/-- R161: with the reference schedule of R80, a reset after `k` of the four pops of a frame read abandons it without a response;
the `k` bytes stay removed and the rest of the frame stands at the front. -/
def Obligations.ResetCutsFrameRead : Prop :=
  ∀ (s : State) (high low checksum : Byte) (rest : List Byte) (k : Nat),
    s.busy = true → s.slack = 0 → s.phase = .start → s.cmd = 0#36 → s.claim = none →
    s.stream = 0xFF#8 :: high :: low :: checksum :: rest → k ≤ 3 →
    s.inputs = List.replicate k .clock ++ [.reset] →
    ∃ t, run (k + 1) s = .next t ∧ t.stream = s.stream.drop k ∧ t.busy = false ∧ t.st = .idle ∧
      t.rspValid = false ∧ t.rsp = ⟨.insufficientData, false, 0#3, 0#64⟩

/-- R160, R161: an edge with `rst = 1` sets the reset values in any state, leaves the stream alone, and shows nothing ready,
popped or signalled while `rst` is 1; at the next edge a command can be accepted. That this is so too at an edge of a running
SYNC whose transport counts wrongly, and not the fault of R48, is the model's choice (log 30). -/
def Obligations.ResetEdgeSetsResetValues : Prop :=
  ∀ (s : State) (rest : List Input), s.inputs = .reset :: rest →
    (outputs true s).cmdReady = false ∧ (outputs true s).rxPop = false ∧ (outputs true s).rspValid = false ∧
    ∃ t, step s = .next t ∧ t.st = .idle ∧ t.busy = false ∧
      t.rsp.status.code = 0b001#3 ∧ t.rsp.valid = false ∧ t.rsp.consumed = 0#3 ∧ t.rsp.data = 0#64 ∧
      t.rspValid = false ∧ t.stream = s.stream ∧ (outputs false t).cmdReady = true

/-- R34: the values the spec gives for reset; the packed response is `InsufficientData` with every other bit zero. -/
def Obligations.ResetStateValues : Prop :=
  State.reset.st = .idle ∧ State.reset.busy = false ∧ State.reset.rsp.valid = false ∧
  State.reset.rsp.pack = 0x100000000000000000#71

/-- R79: the saturated count tells fewer than four bytes from four, and an empty stream from one that is not; `rx_data` is the
front byte of a stream that is not empty. -/
def Obligations.ReceivePortTellsCount : Prop :=
  ∀ s : State, (rxCount s < 4 ↔ avail s < 4) ∧ (1 ≤ rxCount s ↔ 1 ≤ avail s) ∧
    ∀ b rest, s.stream = b :: rest → rxData s = b

/-- R77, R79: `rx_pop` is 1 exactly in the cycles at whose edge the front byte is removed, and only when there is one. -/
def Obligations.RxPopRemovesFrontByte : Prop :=
  ∀ s t : State, Sequenced s → s.claim = none → edge s = .next t →
    (rxPop s = true → 1 ≤ rxCount s ∧ ∃ b, s.stream = b :: t.stream) ∧
    (rxPop s = false → t.stream = s.stream)

/-! ## CMD, ST and a SYNC in progress, over all steps (10_state.md R29, R31) -/

/-- R29: from acceptance to completion `CMD` holds the accepted word: no step from a busy block to a busy block changes it. -/
def Obligations.CommandHeldWhileBusy : Prop :=
  ∀ s t : State, step s = .next t → s.busy = true → t.busy = true → t.cmd = s.cmd

/-- R29, R24: `ST` is `Idle` exactly when the block is not busy, in every consistent state. Which other value it has while a
command other than SYNC runs is open (log 16). -/
def Obligations.StIdleExactlyWhenNotBusy : Prop :=
  ∀ s : State, Sequenced s → (s.busy = true ↔ s.st ≠ .idle)

/-- R31, R53, R105: once SYNC has sampled its count, bytes that arrive between its edges, into a stream with room or at the
capacity (log 10), change neither its response nor what it takes into `F`: run with them or without them, it answers the
same. How many edges an implementation lets pass is open (log 12). -/
def Obligations.ArrivalsKeepAnswer : Prop :=
  ∀ (s t u : State) (ins : List Input) (n : Nat), Sequenced s → s.busy = true → decodeCommand s.cmd = .ok .sync →
    s.claim = none → s.phase ≠ .start → (∀ i ∈ ins, i.Passive) →
    run ins.length { s with inputs := ins } = .next t → t.busy = false →
    run n { s with inputs := [] } = .next u → u.busy = false →
    t.rsp = u.rsp ∧ t.frame = u.frame
end

