-- ==== Sys2Proof/Laws/Binary64.lean ====
section
/-! SUPPORT. What rounding a ratio to binary64 does, said once: the significand it takes, and how near it is. -/

namespace Sys2Proof.Machine.Binary64

/-- The ratio in units of `2 ^ e` is the ratio divided by `2 ^ e`. -/
theorem inUnits_ratio (num den : Nat) (e : Int) :
    ((inUnits num den e).1 : ℚ) / (inUnits num den e).2 = (num : ℚ) / den / (2 : ℚ) ^ e := by
  unfold inUnits
  split
  · rename_i h
    obtain ⟨k, rfl⟩ := Int.eq_ofNat_of_zero_le h
    simp [div_div]
  · rename_i h
    obtain ⟨k, rfl⟩ := Int.eq_negSucc_of_lt_zero (not_le.mp h)
    simp only [Int.neg_negSucc, Int.toNat_natCast, Nat.cast_mul, Nat.cast_pow, Nat.cast_ofNat, zpow_negSucc]
    field_simp

theorem inUnits_den_pos {den : Nat} (num : Nat) (e : Int) (hd : 0 < den) : 0 < (inUnits num den e).2 := by
  unfold inUnits; split <;> simp [hd]

/-- Rounding changes a quotient by at most a half, and stays at its floor or one above. -/
theorem roundEven_spec {n d : Nat} (hd : 0 < d) :
    |(roundEven n d : ℚ) - (n : ℚ) / d| ≤ 1 / 2 ∧ n / d ≤ roundEven n d ∧ roundEven n d ≤ n / d + 1 := by
  have hdq : (0 : ℚ) < d := by exact_mod_cast hd
  have hdiv : (n : ℚ) / d = (n / d : ℕ) + ((n % d : ℕ) : ℚ) / d := by
    have h : (d : ℚ) * ((n / d : ℕ) : ℚ) + ((n % d : ℕ) : ℚ) = n := by exact_mod_cast Nat.div_add_mod n d
    rw [← h]; field_simp
  have hr := Nat.mod_lt n hd
  unfold roundEven
  simp only
  split
  · rename_i h
    refine ⟨?_, by omega, le_refl _⟩
    have h2 : (d : ℚ) ≤ 2 * ((n % d : ℕ) : ℚ) := by
      have : d ≤ 2 * (n % d) := by rcases h with h | h <;> omega
      exact_mod_cast this
    have h1 : ((n % d : ℕ) : ℚ) ≤ d := by exact_mod_cast hr.le
    rw [hdiv]; push_cast
    rw [abs_le]; constructor
    · have : ((n % d : ℕ) : ℚ) / d ≤ 1 := (div_le_one hdq).mpr h1
      linarith
    · have : 1 / 2 ≤ ((n % d : ℕ) : ℚ) / d := by rw [le_div_iff₀ hdq]; linarith
      linarith
  · rename_i h
    refine ⟨?_, le_refl _, by omega⟩
    have h2 : 2 * ((n % d : ℕ) : ℚ) ≤ d := by
      have : 2 * (n % d) ≤ d := by by_contra hh; exact h (.inl (by omega))
      exact_mod_cast this
    rw [hdiv, abs_le]; constructor
    · have : ((n % d : ℕ) : ℚ) / d ≤ 1 / 2 := by rw [div_le_iff₀ hdq]; linarith
      linarith
    · have : (0 : ℚ) ≤ ((n % d : ℕ) : ℚ) / d := by positivity
      linarith

/-- The unit exponent of a ratio in the normal range puts it between `2 ^ 52` and `2 ^ 53` units. -/
theorem unitExponent_spec {num den : Nat} (hn : 0 < num) (hd : 0 < den) (he : -1074 < unitExponent num den) :
    (2 : ℚ) ^ 52 ≤ (num : ℚ) / den / (2 : ℚ) ^ unitExponent num den ∧
      (num : ℚ) / den / (2 : ℚ) ^ unitExponent num den < (2 : ℚ) ^ 53 := by
  have hdq : (0 : ℚ) < den := by exact_mod_cast hd
  have n1 : (2 : ℚ) ^ Nat.log2 num ≤ num := by exact_mod_cast Nat.log2_self_le hn.ne'
  have n2 : (num : ℚ) < 2 ^ (Nat.log2 num + 1) := by exact_mod_cast Nat.lt_log2_self
  have d1 : (2 : ℚ) ^ Nat.log2 den ≤ den := by exact_mod_cast Nat.log2_self_le hd.ne'
  have d2 : (den : ℚ) < 2 ^ (Nat.log2 den + 1) := by exact_mod_cast Nat.lt_log2_self
  generalize hL : Nat.log2 num = L at *
  generalize hM : Nat.log2 den = M at *
  set e0 : Int := (L : Int) - (M : Int) - 53 with he0
  have hp : (2 : ℚ) ^ e0 = 2 ^ L / 2 ^ M / 2 ^ 53 := by
    rw [he0, zpow_sub₀ two_ne_zero, zpow_sub₀ two_ne_zero]; norm_cast
  have lo : (2 : ℚ) ^ 52 ≤ (num : ℚ) / den / (2 : ℚ) ^ e0 := by
    rw [hp, le_div_iff₀ (by positivity), le_div_iff₀ hdq]
    calc (2 : ℚ) ^ 52 * (2 ^ L / 2 ^ M / 2 ^ 53) * den ≤ 2 ^ 52 * (2 ^ L / 2 ^ M / 2 ^ 53) * 2 ^ (M + 1) := by gcongr
      _ = 2 ^ L := by field_simp; ring
      _ ≤ num := n1
  have hi : (num : ℚ) / den / (2 : ℚ) ^ e0 < (2 : ℚ) ^ 54 := by
    rw [hp, div_lt_iff₀ (by positivity), div_lt_iff₀ hdq]
    calc (num : ℚ) < 2 ^ (L + 1) := n2
      _ = 2 ^ 54 * (2 ^ L / 2 ^ M / 2 ^ 53) * 2 ^ M := by field_simp; ring
      _ ≤ 2 ^ 54 * (2 ^ L / 2 ^ M / 2 ^ 53) * den := by gcongr
  have hq := inUnits_den_pos num e0 hd
  have hx := inUnits_ratio num den e0
  have hqq : (0 : ℚ) < (inUnits num den e0).2 := by exact_mod_cast hq
  have hlt : (inUnits num den e0).1 / (inUnits num den e0).2 < 2 ^ 53 ↔
      (num : ℚ) / den / (2 : ℚ) ^ e0 < (2 : ℚ) ^ 53 := by
    rw [← hx, div_lt_iff₀ hqq, Nat.div_lt_iff_lt_mul hq]
    exact_mod_cast Iff.rfl
  have hue : unitExponent num den =
      max (if (inUnits num den e0).1 / (inUnits num den e0).2 < 2 ^ 53 then e0 else e0 + 1) (-1074) := by
    simp only [unitExponent, hL, hM, ← he0]
  rw [hue] at he ⊢
  rw [max_eq_left ((lt_max_iff.mp he).resolve_right (lt_irrefl _)).le]
  by_cases hc : (inUnits num den e0).1 / (inUnits num den e0).2 < 2 ^ 53
  · rw [if_pos hc]; exact ⟨lo, hlt.mp hc⟩
  · rw [if_neg hc, zpow_add₀ two_ne_zero, ← div_div]
    have := not_lt.mp (fun h => hc (hlt.mpr h))
    constructor
    · rw [le_div_iff₀ (by norm_num)]; norm_num at this ⊢; linarith
    · rw [div_lt_iff₀ (by norm_num)]; norm_num at hi ⊢; linarith

/-- The pattern made of a unit exponent and a normal significand stands for their product; a significand of `2 ^ 53` carries
into the exponent field. -/
theorem value_of_parts {m : Nat} {e : Int} (h1 : 2 ^ 52 ≤ m) (h2 : m ≤ 2 ^ 53) (he : -1074 ≤ e) (he' : e ≤ 900) :
    value (BitVec.ofNat 64 (min ((e + 1074).toNat * 2 ^ 52 + m) (2047 * 2 ^ 52))) = some ((m : ℚ) * (2 : ℚ) ^ e) := by
  obtain ⟨k, hk⟩ := Int.eq_ofNat_of_zero_le (show 0 ≤ e + 1074 by omega)
  have hke : e = (k : Int) - 1074 := by omega
  subst hke
  have hk2 : k ≤ 1974 := by omega
  have hN : min (((k : Int) - 1074 + 1074).toNat * 2 ^ 52 + m) (2047 * 2 ^ 52) = k * 2 ^ 52 + m := by
    have : ((k : Int) - 1074 + 1074).toNat = k := by omega
    rw [this]; omega
  rw [hN]
  set b : DataWord := BitVec.ofNat 64 (k * 2 ^ 52 + m) with hb
  have hbn : b.toNat = k * 2 ^ 52 + m := by
    rw [hb, BitVec.toNat_ofNat]; exact Nat.mod_eq_of_lt (by omega)
  have hs : signBit b = false := by
    unfold signBit
    rw [BitVec.getLsbD, hbn]
    exact Nat.testBit_lt_two_pow (by omega)
  have hE : expField b = (k * 2 ^ 52 + m) / 2 ^ 52 := by
    unfold expField
    rw [BitVec.extractLsb'_toNat, hbn, Nat.shiftRight_eq_div_pow]
    exact Nat.mod_eq_of_lt (by omega)
  have hF : fracField b = (k * 2 ^ 52 + m) % 2 ^ 52 := by
    unfold fracField
    rw [BitVec.extractLsb'_toNat, hbn]; rfl
  rcases Nat.lt_or_ge m (2 ^ 53) with hm | hm
  · have hE' : expField b = k + 1 := by omega
    have hF' : fracField b + 2 ^ 52 = m := by omega
    have hsig : significand b = m := by unfold significand; rw [hE', if_neg (by omega)]; omega
    have hexp : exponent b = (k : Int) - 1074 := by unfold exponent; rw [hE']; push_cast; omega
    unfold value
    rw [if_neg (by omega), hs, hsig, hexp]; simp
  · have hm' : m = 2 ^ 53 := le_antisymm h2 hm
    have hE' : expField b = k + 2 := by omega
    have hF' : fracField b = 0 := by omega
    have hsig : significand b = 2 ^ 52 := by unfold significand; rw [hE', if_neg (by omega)]; omega
    have hexp : exponent b = (k : Int) - 1074 + 1 := by unfold exponent; rw [hE']; push_cast; omega
    have hmq : (m : ℚ) = 2 ^ 52 * 2 := by rw [hm']; norm_num
    unfold value
    rw [if_neg (by omega), hs, hsig, hexp, zpow_add₀ two_ne_zero, hmq]
    congr 1; push_cast; ring

/-- Everything rounding a positive ratio of the middle range does: the value is a significand of 53 bits, or the next power of
two, in units of the unit exponent, and it is within half a unit of the ratio. -/
theorem ofRatio_spec {num den : Nat} (hn : 0 < num) (hd : 0 < den) (he : -1074 < unitExponent num den)
    (he' : unitExponent num den ≤ 900) :
    ∃ m : Nat, 2 ^ 52 ≤ m ∧ m ≤ 2 ^ 53 ∧
      value (ofRatio num den) = some ((m : ℚ) * (2 : ℚ) ^ unitExponent num den) ∧
      |(m : ℚ) - (num : ℚ) / den / (2 : ℚ) ^ unitExponent num den| ≤ 1 / 2 ∧
      (2 : ℚ) ^ 52 ≤ (num : ℚ) / den / (2 : ℚ) ^ unitExponent num den ∧
      (num : ℚ) / den / (2 : ℚ) ^ unitExponent num den < (2 : ℚ) ^ 53 := by
  obtain ⟨lo, hi⟩ := unitExponent_spec hn hd he
  have hq := inUnits_den_pos num (unitExponent num den) hd
  have hqq : (0 : ℚ) < (inUnits num den (unitExponent num den)).2 := by exact_mod_cast hq
  obtain ⟨r1, r2, r3⟩ := roundEven_spec (n := (inUnits num den (unitExponent num den)).1) hq
  have hx := inUnits_ratio num den (unitExponent num den)
  rw [hx] at r1
  have l1 : 2 ^ 52 ≤ (inUnits num den (unitExponent num den)).1 / (inUnits num den (unitExponent num den)).2 := by
    rw [Nat.le_div_iff_mul_le hq]
    rw [← hx, le_div_iff₀ hqq] at lo
    exact_mod_cast lo
  have l2 : (inUnits num den (unitExponent num den)).1 / (inUnits num den (unitExponent num den)).2 < 2 ^ 53 := by
    rw [Nat.div_lt_iff_lt_mul hq]
    rw [← hx, div_lt_iff₀ hqq] at hi
    exact_mod_cast hi
  refine ⟨_, le_trans l1 r2, by omega, ?_, r1, lo, hi⟩
  unfold ofRatio
  rw [if_neg hn.ne']
  exact value_of_parts (le_trans l1 r2) (by omega) he.le he'

/-- A positive ratio between two powers of two has a unit exponent between theirs. -/
theorem unitExponent_bounds {num den : Nat} {a b : Int} (hn : 0 < num) (hd : 0 < den)
    (h1 : (2 : ℚ) ^ a ≤ (num : ℚ) / den) (h2 : (num : ℚ) / den < (2 : ℚ) ^ b) (ha : -1000 < a) :
    a - 53 < unitExponent num den ∧ unitExponent num den ≤ b - 53 := by
  have key : -1074 < unitExponent num den →
      a - 53 < unitExponent num den ∧ unitExponent num den ≤ b - 53 := by
    intro he
    obtain ⟨lo, hi⟩ := unitExponent_spec hn hd he
    set e := unitExponent num den
    rw [le_div_iff₀ (by positivity), ← zpow_natCast, ← zpow_add₀ two_ne_zero] at lo
    rw [div_lt_iff₀ (by positivity), ← zpow_natCast, ← zpow_add₀ two_ne_zero] at hi
    have l := (zpow_lt_zpow_iff_right₀ (by norm_num : (1 : ℚ) < 2)).mp (lt_of_le_of_lt lo h2)
    have u := (zpow_lt_zpow_iff_right₀ (by norm_num : (1 : ℚ) < 2)).mp (lt_of_le_of_lt h1 hi)
    push_cast at l u
    omega
  by_cases he : -1074 < unitExponent num den
  · exact key he
  · exfalso
    -- At the subnormal unit the ratio would be below `2 ^ (-1021)`.
    have hdq : (0 : ℚ) < den := by exact_mod_cast hd
    have n2 : (num : ℚ) < 2 ^ (Nat.log2 num + 1) := by exact_mod_cast Nat.lt_log2_self
    have d1 : (2 : ℚ) ^ Nat.log2 den ≤ den := by exact_mod_cast Nat.log2_self_le hd.ne'
    have hle : (Nat.log2 num : Int) - (Nat.log2 den : Int) - 53 ≤ -1074 := by
      unfold unitExponent at he
      simp only [lt_max_iff, lt_irrefl, or_false, not_lt] at he
      split at he <;> omega
    have : (num : ℚ) / den < (2 : ℚ) ^ ((Nat.log2 num : Int) + 1 - (Nat.log2 den : Int)) := by
      rw [div_lt_iff₀ hdq, zpow_sub₀ two_ne_zero]
      calc (num : ℚ) < 2 ^ (Nat.log2 num + 1) := n2
        _ = (2 : ℚ) ^ ((Nat.log2 num : Int) + 1) / (2 : ℚ) ^ (Nat.log2 den : Int) * 2 ^ Nat.log2 den := by
          rw [zpow_natCast]; field_simp; norm_cast
        _ ≤ _ := by gcongr
    have := (zpow_lt_zpow_iff_right₀ (by norm_num : (1 : ℚ) < 2)).mp (lt_of_le_of_lt h1 this)
    omega

/-- A natural number below `2 ^ 53` is its own binary64 value (R125, R126). -/
theorem ofNat_exact {n : Nat} (h0 : 0 < n) (h : n < 2 ^ 53) :
    value (ofNat n) = some (n : ℚ) := by
  have h1 : (2 : ℚ) ^ (0 : Int) ≤ (n : ℚ) / (1 : Nat) := by simpa using (by exact_mod_cast h0 : (1 : ℚ) ≤ n)
  have h2 : (n : ℚ) / (1 : Nat) < (2 : ℚ) ^ (53 : Int) := by simpa using (by exact_mod_cast h : (n : ℚ) < 2 ^ 53)
  obtain ⟨e1, e2⟩ := unitExponent_bounds h0 one_pos h1 h2 (by norm_num)
  obtain ⟨m, -, -, hv, herr, -, -⟩ := ofRatio_spec h0 one_pos (by omega) (by omega)
  rw [ofNat, hv]
  set e := unitExponent n 1
  obtain ⟨k, hk⟩ := Int.eq_ofNat_of_zero_le (show 0 ≤ -e by omega)
  have hek : (2 : ℚ) ^ e = 1 / 2 ^ k := by
    rw [show e = -(k : Int) by omega, zpow_neg, zpow_natCast, one_div]
  have hm : (m : ℚ) = n * 2 ^ k := by
    rw [hek] at herr
    have : |((m : Int) - ((n * 2 ^ k : ℕ) : Int) : ℤ)| < 1 := by
      have : |(m : ℚ) - n * 2 ^ k| < 1 := by
        have e : (n : ℚ) / (1 : Nat) / (1 / 2 ^ k) = n * 2 ^ k := by simp
        rw [e] at herr; linarith
      exact_mod_cast this
    have := Int.abs_lt_one_iff.mp this
    have : (m : Int) = ((n * 2 ^ k : ℕ) : Int) := by omega
    exact_mod_cast this
  rw [hm, hek]; congr 1; field_simp

/-- A finite pattern with a positive sign stands for its significand in units of its exponent. -/
theorem value_eq_parts {b : DataWord} {v : ℚ} (h : value b = some v) (hs : signBit b = false) :
    v = significand b * (2 : ℚ) ^ exponent b := by
  unfold value at h
  split at h
  · cases h
  · simp only [Option.some.injEq, hs] at h
    rw [← h]; simp

/-- A quotient is the rounded ratio of the two values. -/
theorem divide_ratio {x y : DataWord} {v w : ℚ} (hx : value x = some v) (hy : value y = some w)
    (sx : signBit x = false) (sy : signBit y = false) :
    ∃ num den : Nat, divide x y = ofRatio num den ∧ (num : ℚ) / den = v / w := by
  refine ⟨_, _, rfl, ?_⟩
  rw [value_eq_parts hx sx, value_eq_parts hy sy]
  push_cast
  rw [← zpow_natCast, ← zpow_natCast]
  rw [mul_div_mul_comm, mul_div_mul_comm, ← zpow_sub₀ two_ne_zero, ← zpow_sub₀ two_ne_zero]
  congr 2
  omega

/-- Rounding a ratio never sets the sign. -/
theorem signBit_ofRatio (num den : Nat) : signBit (ofRatio num den) = false := by
  unfold ofRatio
  split
  · rfl
  · have h : ∀ k, k ≤ 2047 * 2 ^ 52 → signBit (BitVec.ofNat 64 k) = false := by
      intro k hk
      have hb : (BitVec.ofNat 64 k).toNat = k := by
        rw [BitVec.toNat_ofNat]; exact Nat.mod_eq_of_lt (by omega)
      unfold signBit
      rw [BitVec.getLsbD, hb]
      exact Nat.testBit_lt_two_pow (by omega)
    exact h _ (min_le_right _ _)

/-- The literal `10.0` is ten (R125, G1). -/
theorem value_ten : value ten = some 10 := by
  have h1 : expField ten = 1026 := by decide
  have h2 : fracField ten = 2 ^ 50 := by decide
  have h3 : signBit ten = false := by decide
  have h4 : significand ten = 2 ^ 52 + 2 ^ 50 := by rw [significand, h1, h2]; rfl
  have h5 : exponent ten = -49 := by rw [exponent, h1]; rfl
  rw [value, h1, h3, h4, h5]
  norm_num

end Sys2Proof.Machine.Binary64
end

