-- ==== Sys2Proof/Laws/State.lean ====
section
/-! SUPPORT. Each field of the state after each named update: one lemma a field, so that no proof unfolds a record. -/

namespace Sys2Proof.Machine

variable (s : State)

/-! `setSt`. -/

@[simp] theorem setSt_stream (d : DecoderState) : (setSt d s).stream = s.stream := rfl
@[simp] theorem setSt_frame (d : DecoderState) : (setSt d s).frame = s.frame := rfl
@[simp] theorem setSt_st (d : DecoderState) : (setSt d s).st = d := rfl
@[simp] theorem setSt_rsp (d : DecoderState) : (setSt d s).rsp = s.rsp := rfl
@[simp] theorem setSt_cmd (d : DecoderState) : (setSt d s).cmd = s.cmd := rfl
@[simp] theorem setSt_busy (d : DecoderState) : (setSt d s).busy = s.busy := rfl
@[simp] theorem setSt_rspValid (d : DecoderState) : (setSt d s).rspValid = s.rspValid := rfl
@[simp] theorem setSt_phase (d : DecoderState) : (setSt d s).phase = s.phase := rfl
@[simp] theorem setSt_slack (d : DecoderState) : (setSt d s).slack = s.slack := rfl
@[simp] theorem setSt_sampled (d : DecoderState) : (setSt d s).sampled = s.sampled := rfl
@[simp] theorem setSt_claim (d : DecoderState) : (setSt d s).claim = s.claim := rfl
@[simp] theorem setSt_sent (d : DecoderState) : (setSt d s).sent = s.sent := rfl
@[simp] theorem setSt_inputs (d : DecoderState) : (setSt d s).inputs = s.inputs := rfl
@[simp] theorem setSt_free (d : DecoderState) : (setSt d s).free = s.free := rfl
@[simp] theorem setSt_lost (d : DecoderState) : (setSt d s).lost = s.lost := rfl

/-! `setFrame`. -/

@[simp] theorem setFrame_stream (f : Frame) : (setFrame f s).stream = s.stream := rfl
@[simp] theorem setFrame_frame (f : Frame) : (setFrame f s).frame = f := rfl
@[simp] theorem setFrame_st (f : Frame) : (setFrame f s).st = s.st := rfl
@[simp] theorem setFrame_rsp (f : Frame) : (setFrame f s).rsp = s.rsp := rfl
@[simp] theorem setFrame_cmd (f : Frame) : (setFrame f s).cmd = s.cmd := rfl
@[simp] theorem setFrame_busy (f : Frame) : (setFrame f s).busy = s.busy := rfl
@[simp] theorem setFrame_rspValid (f : Frame) : (setFrame f s).rspValid = s.rspValid := rfl
@[simp] theorem setFrame_phase (f : Frame) : (setFrame f s).phase = s.phase := rfl
@[simp] theorem setFrame_slack (f : Frame) : (setFrame f s).slack = s.slack := rfl
@[simp] theorem setFrame_sampled (f : Frame) : (setFrame f s).sampled = s.sampled := rfl
@[simp] theorem setFrame_claim (f : Frame) : (setFrame f s).claim = s.claim := rfl
@[simp] theorem setFrame_sent (f : Frame) : (setFrame f s).sent = s.sent := rfl
@[simp] theorem setFrame_inputs (f : Frame) : (setFrame f s).inputs = s.inputs := rfl
@[simp] theorem setFrame_free (f : Frame) : (setFrame f s).free = s.free := rfl
@[simp] theorem setFrame_lost (f : Frame) : (setFrame f s).lost = s.lost := rfl

/-! `setInputs`. -/

@[simp] theorem setInputs_stream (l : List Input) : (setInputs l s).stream = s.stream := rfl
@[simp] theorem setInputs_frame (l : List Input) : (setInputs l s).frame = s.frame := rfl
@[simp] theorem setInputs_st (l : List Input) : (setInputs l s).st = s.st := rfl
@[simp] theorem setInputs_rsp (l : List Input) : (setInputs l s).rsp = s.rsp := rfl
@[simp] theorem setInputs_cmd (l : List Input) : (setInputs l s).cmd = s.cmd := rfl
@[simp] theorem setInputs_busy (l : List Input) : (setInputs l s).busy = s.busy := rfl
@[simp] theorem setInputs_rspValid (l : List Input) : (setInputs l s).rspValid = s.rspValid := rfl
@[simp] theorem setInputs_phase (l : List Input) : (setInputs l s).phase = s.phase := rfl
@[simp] theorem setInputs_slack (l : List Input) : (setInputs l s).slack = s.slack := rfl
@[simp] theorem setInputs_sampled (l : List Input) : (setInputs l s).sampled = s.sampled := rfl
@[simp] theorem setInputs_claim (l : List Input) : (setInputs l s).claim = s.claim := rfl
@[simp] theorem setInputs_sent (l : List Input) : (setInputs l s).sent = s.sent := rfl
@[simp] theorem setInputs_inputs (l : List Input) : (setInputs l s).inputs = l := rfl
@[simp] theorem setInputs_free (l : List Input) : (setInputs l s).free = s.free := rfl
@[simp] theorem setInputs_lost (l : List Input) : (setInputs l s).lost = s.lost := rfl

/-! `setClaim`. -/

@[simp] theorem setClaim_stream (c : Option Nat) : (setClaim c s).stream = s.stream := rfl
@[simp] theorem setClaim_frame (c : Option Nat) : (setClaim c s).frame = s.frame := rfl
@[simp] theorem setClaim_st (c : Option Nat) : (setClaim c s).st = s.st := rfl
@[simp] theorem setClaim_rsp (c : Option Nat) : (setClaim c s).rsp = s.rsp := rfl
@[simp] theorem setClaim_cmd (c : Option Nat) : (setClaim c s).cmd = s.cmd := rfl
@[simp] theorem setClaim_busy (c : Option Nat) : (setClaim c s).busy = s.busy := rfl
@[simp] theorem setClaim_rspValid (c : Option Nat) : (setClaim c s).rspValid = s.rspValid := rfl
@[simp] theorem setClaim_phase (c : Option Nat) : (setClaim c s).phase = s.phase := rfl
@[simp] theorem setClaim_slack (c : Option Nat) : (setClaim c s).slack = s.slack := rfl
@[simp] theorem setClaim_sampled (c : Option Nat) : (setClaim c s).sampled = s.sampled := rfl
@[simp] theorem setClaim_claim (c : Option Nat) : (setClaim c s).claim = c := rfl
@[simp] theorem setClaim_sent (c : Option Nat) : (setClaim c s).sent = s.sent := rfl
@[simp] theorem setClaim_inputs (c : Option Nat) : (setClaim c s).inputs = s.inputs := rfl
@[simp] theorem setClaim_free (c : Option Nat) : (setClaim c s).free = s.free := rfl
@[simp] theorem setClaim_lost (c : Option Nat) : (setClaim c s).lost = s.lost := rfl

/-! `endPulse`. -/

@[simp] theorem endPulse_stream : (endPulse s).stream = s.stream := rfl
@[simp] theorem endPulse_frame : (endPulse s).frame = s.frame := rfl
@[simp] theorem endPulse_st : (endPulse s).st = s.st := rfl
@[simp] theorem endPulse_rsp : (endPulse s).rsp = s.rsp := rfl
@[simp] theorem endPulse_cmd : (endPulse s).cmd = s.cmd := rfl
@[simp] theorem endPulse_busy : (endPulse s).busy = s.busy := rfl
@[simp] theorem endPulse_rspValid : (endPulse s).rspValid = false := rfl
@[simp] theorem endPulse_phase : (endPulse s).phase = s.phase := rfl
@[simp] theorem endPulse_slack : (endPulse s).slack = s.slack := rfl
@[simp] theorem endPulse_sampled : (endPulse s).sampled = s.sampled := rfl
@[simp] theorem endPulse_claim : (endPulse s).claim = s.claim := rfl
@[simp] theorem endPulse_sent : (endPulse s).sent = s.sent := rfl
@[simp] theorem endPulse_inputs : (endPulse s).inputs = s.inputs := rfl
@[simp] theorem endPulse_free : (endPulse s).free = s.free := rfl
@[simp] theorem endPulse_lost : (endPulse s).lost = s.lost := rfl

/-! `write`. -/

@[simp] theorem write_stream (b : Byte) : (write b s).stream = s.stream := rfl
@[simp] theorem write_frame (b : Byte) : (write b s).frame = s.frame := rfl
@[simp] theorem write_st (b : Byte) : (write b s).st = s.st := rfl
@[simp] theorem write_rsp (b : Byte) : (write b s).rsp = s.rsp := rfl
@[simp] theorem write_cmd (b : Byte) : (write b s).cmd = s.cmd := rfl
@[simp] theorem write_busy (b : Byte) : (write b s).busy = s.busy := rfl
@[simp] theorem write_rspValid (b : Byte) : (write b s).rspValid = s.rspValid := rfl
@[simp] theorem write_phase (b : Byte) : (write b s).phase = s.phase := rfl
@[simp] theorem write_slack (b : Byte) : (write b s).slack = s.slack := rfl
@[simp] theorem write_sampled (b : Byte) : (write b s).sampled = s.sampled := rfl
@[simp] theorem write_claim (b : Byte) : (write b s).claim = s.claim := rfl
@[simp] theorem write_sent (b : Byte) : (write b s).sent = s.sent ++ [b] := rfl
@[simp] theorem write_inputs (b : Byte) : (write b s).inputs = s.inputs := rfl
@[simp] theorem write_free (b : Byte) : (write b s).free = s.free := rfl
@[simp] theorem write_lost (b : Byte) : (write b s).lost = s.lost := rfl

/-! `latch`. -/

@[simp] theorem latch_stream (w : CmdWord) : (latch w s).stream = s.stream := rfl
@[simp] theorem latch_frame (w : CmdWord) : (latch w s).frame = s.frame := rfl
@[simp] theorem latch_st (w : CmdWord) : (latch w s).st = s.st := rfl
@[simp] theorem latch_rsp (w : CmdWord) : (latch w s).rsp = s.rsp := rfl
@[simp] theorem latch_cmd (w : CmdWord) : (latch w s).cmd = w := rfl
@[simp] theorem latch_busy (w : CmdWord) : (latch w s).busy = true := rfl
@[simp] theorem latch_rspValid (w : CmdWord) : (latch w s).rspValid = false := rfl
@[simp] theorem latch_phase (w : CmdWord) : (latch w s).phase = s.phase := rfl
@[simp] theorem latch_slack (w : CmdWord) : (latch w s).slack = s.slack := rfl
@[simp] theorem latch_sampled (w : CmdWord) : (latch w s).sampled = s.sampled := rfl
@[simp] theorem latch_claim (w : CmdWord) : (latch w s).claim = s.claim := rfl
@[simp] theorem latch_sent (w : CmdWord) : (latch w s).sent = s.sent := rfl
@[simp] theorem latch_inputs (w : CmdWord) : (latch w s).inputs = s.inputs := rfl
@[simp] theorem latch_free (w : CmdWord) : (latch w s).free = s.free := rfl
@[simp] theorem latch_lost (w : CmdWord) : (latch w s).lost = s.lost := rfl

/-! `setPhase`. -/

@[simp] theorem setPhase_stream (p : Phase) : (setPhase p s).stream = s.stream := rfl
@[simp] theorem setPhase_frame (p : Phase) : (setPhase p s).frame = s.frame := rfl
@[simp] theorem setPhase_st (p : Phase) : (setPhase p s).st = s.st := rfl
@[simp] theorem setPhase_rsp (p : Phase) : (setPhase p s).rsp = s.rsp := rfl
@[simp] theorem setPhase_cmd (p : Phase) : (setPhase p s).cmd = s.cmd := rfl
@[simp] theorem setPhase_busy (p : Phase) : (setPhase p s).busy = s.busy := rfl
@[simp] theorem setPhase_rspValid (p : Phase) : (setPhase p s).rspValid = s.rspValid := rfl
@[simp] theorem setPhase_phase (p : Phase) : (setPhase p s).phase = p := rfl
@[simp] theorem setPhase_slack (p : Phase) : (setPhase p s).slack = s.slack := rfl
@[simp] theorem setPhase_sampled (p : Phase) : (setPhase p s).sampled = s.sampled := rfl
@[simp] theorem setPhase_claim (p : Phase) : (setPhase p s).claim = s.claim := rfl
@[simp] theorem setPhase_sent (p : Phase) : (setPhase p s).sent = s.sent := rfl
@[simp] theorem setPhase_inputs (p : Phase) : (setPhase p s).inputs = s.inputs := rfl
@[simp] theorem setPhase_free (p : Phase) : (setPhase p s).free = s.free := rfl
@[simp] theorem setPhase_lost (p : Phase) : (setPhase p s).lost = s.lost := rfl

/-! `waitEdge`. -/

@[simp] theorem waitEdge_stream : (waitEdge s).stream = s.stream := rfl
@[simp] theorem waitEdge_frame : (waitEdge s).frame = s.frame := rfl
@[simp] theorem waitEdge_st : (waitEdge s).st = s.st := rfl
@[simp] theorem waitEdge_rsp : (waitEdge s).rsp = s.rsp := rfl
@[simp] theorem waitEdge_cmd : (waitEdge s).cmd = s.cmd := rfl
@[simp] theorem waitEdge_busy : (waitEdge s).busy = s.busy := rfl
@[simp] theorem waitEdge_rspValid : (waitEdge s).rspValid = false := rfl
@[simp] theorem waitEdge_phase : (waitEdge s).phase = s.phase := rfl
@[simp] theorem waitEdge_slack : (waitEdge s).slack = s.slack - 1 := rfl
@[simp] theorem waitEdge_sampled : (waitEdge s).sampled = s.sampled := rfl
@[simp] theorem waitEdge_claim : (waitEdge s).claim = s.claim := rfl
@[simp] theorem waitEdge_sent : (waitEdge s).sent = s.sent := rfl
@[simp] theorem waitEdge_inputs : (waitEdge s).inputs = s.inputs := rfl
@[simp] theorem waitEdge_free : (waitEdge s).free = s.free := rfl
@[simp] theorem waitEdge_lost : (waitEdge s).lost = s.lost := rfl

/-! `sampleCount`: every field but `ST` and the phase. -/

@[simp] theorem sampleCount_stream : (sampleCount s).stream = s.stream := by unfold sampleCount; split <;> rfl
@[simp] theorem sampleCount_frame : (sampleCount s).frame = s.frame := by unfold sampleCount; split <;> rfl
@[simp] theorem sampleCount_rsp : (sampleCount s).rsp = s.rsp := by unfold sampleCount; split <;> rfl
@[simp] theorem sampleCount_cmd : (sampleCount s).cmd = s.cmd := by unfold sampleCount; split <;> rfl
@[simp] theorem sampleCount_busy : (sampleCount s).busy = s.busy := by unfold sampleCount; split <;> rfl
@[simp] theorem sampleCount_rspValid : (sampleCount s).rspValid = s.rspValid := by unfold sampleCount; split <;> rfl
@[simp] theorem sampleCount_slack : (sampleCount s).slack = s.slack := by unfold sampleCount; split <;> rfl
@[simp] theorem sampleCount_sampled : (sampleCount s).sampled = avail s := by unfold sampleCount; split <;> rfl
@[simp] theorem sampleCount_claim : (sampleCount s).claim = s.claim := by unfold sampleCount; split <;> rfl
@[simp] theorem sampleCount_sent : (sampleCount s).sent = s.sent := by unfold sampleCount; split <;> rfl
@[simp] theorem sampleCount_inputs : (sampleCount s).inputs = s.inputs := by unfold sampleCount; split <;> rfl
@[simp] theorem sampleCount_free : (sampleCount s).free = s.free := by unfold sampleCount; split <;> rfl
@[simp] theorem sampleCount_lost : (sampleCount s).lost = s.lost := by unfold sampleCount; split <;> rfl

/-! `accept`: every field but `ST`, the phase and the sampled count. -/

@[simp] theorem accept_stream (w : CmdWord) : (accept w s).stream = s.stream := by
  unfold accept; dsimp only; split <;> simp
@[simp] theorem accept_frame (w : CmdWord) : (accept w s).frame = s.frame := by
  unfold accept; dsimp only; split <;> simp
@[simp] theorem accept_rsp (w : CmdWord) : (accept w s).rsp = s.rsp := by
  unfold accept; dsimp only; split <;> simp
@[simp] theorem accept_cmd (w : CmdWord) : (accept w s).cmd = w := by
  unfold accept; dsimp only; split <;> simp
@[simp] theorem accept_busy (w : CmdWord) : (accept w s).busy = true := by
  unfold accept; dsimp only; split <;> simp
@[simp] theorem accept_rspValid (w : CmdWord) : (accept w s).rspValid = false := by
  unfold accept; dsimp only; split <;> simp
@[simp] theorem accept_slack (w : CmdWord) : (accept w s).slack = Config.latExtra := by
  unfold accept; dsimp only; split <;> simp
@[simp] theorem accept_claim (w : CmdWord) : (accept w s).claim = s.claim := by
  unfold accept; dsimp only; split <;> simp
@[simp] theorem accept_sent (w : CmdWord) : (accept w s).sent = s.sent := by
  unfold accept; dsimp only; split <;> simp
@[simp] theorem accept_inputs (w : CmdWord) : (accept w s).inputs = s.inputs := by
  unfold accept; dsimp only; split <;> simp
@[simp] theorem accept_free (w : CmdWord) : (accept w s).free = s.free := by
  unfold accept; dsimp only; split <;> simp
@[simp] theorem accept_lost (w : CmdWord) : (accept w s).lost = s.lost := by
  unfold accept; dsimp only; split <;> simp

/-! `respond`. -/

@[simp] theorem respond_stream (v : Status) (d : Option DataWord) : (respond v d s).stream = s.stream := rfl
@[simp] theorem respond_frame (v : Status) (d : Option DataWord) : (respond v d s).frame = s.frame := rfl
@[simp] theorem respond_st (v : Status) (d : Option DataWord) : (respond v d s).st = .idle := rfl
@[simp] theorem respond_rsp (v : Status) (d : Option DataWord) : (respond v d s).rsp = ⟨v, validFlag v, consumedCount v, d.getD (Config.freeData s.free)⟩ := rfl
@[simp] theorem respond_cmd (v : Status) (d : Option DataWord) : (respond v d s).cmd = Config.freeCmd s.free := rfl
@[simp] theorem respond_busy (v : Status) (d : Option DataWord) : (respond v d s).busy = false := rfl
@[simp] theorem respond_rspValid (v : Status) (d : Option DataWord) : (respond v d s).rspValid = true := rfl
@[simp] theorem respond_phase (v : Status) (d : Option DataWord) : (respond v d s).phase = .start := rfl
@[simp] theorem respond_slack (v : Status) (d : Option DataWord) : (respond v d s).slack = 0 := rfl
@[simp] theorem respond_sampled (v : Status) (d : Option DataWord) : (respond v d s).sampled = 0 := rfl
@[simp] theorem respond_claim (v : Status) (d : Option DataWord) : (respond v d s).claim = s.claim := rfl
@[simp] theorem respond_sent (v : Status) (d : Option DataWord) : (respond v d s).sent = s.sent := rfl
@[simp] theorem respond_inputs (v : Status) (d : Option DataWord) : (respond v d s).inputs = s.inputs := rfl
@[simp] theorem respond_free (v : Status) (d : Option DataWord) : (respond v d s).free = s.free + 1 := rfl
@[simp] theorem respond_lost (v : Status) (d : Option DataWord) : (respond v d s).lost = s.lost := rfl

/-! `resetEdge`. -/

@[simp] theorem resetEdge_stream : (resetEdge s).stream = s.stream := rfl
@[simp] theorem resetEdge_frame : (resetEdge s).frame = Frame.ofWord (Config.freeFrame s.free) := rfl
@[simp] theorem resetEdge_st : (resetEdge s).st = .idle := rfl
@[simp] theorem resetEdge_rsp : (resetEdge s).rsp = Response.reset := rfl
@[simp] theorem resetEdge_cmd : (resetEdge s).cmd = Config.freeCmd s.free := rfl
@[simp] theorem resetEdge_busy : (resetEdge s).busy = false := rfl
@[simp] theorem resetEdge_rspValid : (resetEdge s).rspValid = false := rfl
@[simp] theorem resetEdge_phase : (resetEdge s).phase = .start := rfl
@[simp] theorem resetEdge_slack : (resetEdge s).slack = 0 := rfl
@[simp] theorem resetEdge_sampled : (resetEdge s).sampled = 0 := rfl
@[simp] theorem resetEdge_claim : (resetEdge s).claim = s.claim := rfl
@[simp] theorem resetEdge_sent : (resetEdge s).sent = s.sent := rfl
@[simp] theorem resetEdge_inputs : (resetEdge s).inputs = s.inputs := rfl
@[simp] theorem resetEdge_free : (resetEdge s).free = s.free + 1 := rfl
@[simp] theorem resetEdge_lost : (resetEdge s).lost = s.lost := rfl

/-! `overflow`. -/

@[simp] theorem overflow_stream (b : Byte) : (overflow b s).stream = (s.stream ++ [b]).eraseIdx (lostAt s) := rfl
@[simp] theorem overflow_frame (b : Byte) : (overflow b s).frame = s.frame := rfl
@[simp] theorem overflow_st (b : Byte) : (overflow b s).st = s.st := rfl
@[simp] theorem overflow_rsp (b : Byte) : (overflow b s).rsp = s.rsp := rfl
@[simp] theorem overflow_cmd (b : Byte) : (overflow b s).cmd = s.cmd := rfl
@[simp] theorem overflow_busy (b : Byte) : (overflow b s).busy = s.busy := rfl
@[simp] theorem overflow_rspValid (b : Byte) : (overflow b s).rspValid = s.rspValid := rfl
@[simp] theorem overflow_phase (b : Byte) : (overflow b s).phase = s.phase := rfl
@[simp] theorem overflow_slack (b : Byte) : (overflow b s).slack = s.slack := rfl
@[simp] theorem overflow_sampled (b : Byte) : (overflow b s).sampled = s.sampled := rfl
@[simp] theorem overflow_claim (b : Byte) : (overflow b s).claim = s.claim := rfl
@[simp] theorem overflow_sent (b : Byte) : (overflow b s).sent = s.sent := rfl
@[simp] theorem overflow_inputs (b : Byte) : (overflow b s).inputs = s.inputs := rfl
@[simp] theorem overflow_free (b : Byte) : (overflow b s).free = s.free := rfl
@[simp] theorem overflow_lost (b : Byte) : (overflow b s).lost = s.lost + 1 := rfl

/-! `withFetchWord`. -/

@[simp] theorem withFetchWord_stream (n w : Nat) : (s.withFetchWord n w).stream = s.stream := rfl
@[simp] theorem withFetchWord_frame (n w : Nat) : (s.withFetchWord n w).frame = s.frame := rfl
@[simp] theorem withFetchWord_st (n w : Nat) : (s.withFetchWord n w).st = s.st := rfl
@[simp] theorem withFetchWord_rsp (n w : Nat) : (s.withFetchWord n w).rsp = s.rsp := rfl
@[simp] theorem withFetchWord_cmd (n w : Nat) : (s.withFetchWord n w).cmd = s.cmd := rfl
@[simp] theorem withFetchWord_busy (n w : Nat) : (s.withFetchWord n w).busy = false := rfl
@[simp] theorem withFetchWord_rspValid (n w : Nat) : (s.withFetchWord n w).rspValid = s.rspValid := rfl
@[simp] theorem withFetchWord_phase (n w : Nat) : (s.withFetchWord n w).phase = s.phase := rfl
@[simp] theorem withFetchWord_slack (n w : Nat) : (s.withFetchWord n w).slack = s.slack := rfl
@[simp] theorem withFetchWord_sampled (n w : Nat) : (s.withFetchWord n w).sampled = s.sampled := rfl
@[simp] theorem withFetchWord_claim (n w : Nat) : (s.withFetchWord n w).claim = s.claim := rfl
@[simp] theorem withFetchWord_sent (n w : Nat) : (s.withFetchWord n w).sent = s.sent := rfl
@[simp] theorem withFetchWord_inputs (n w : Nat) : (s.withFetchWord n w).inputs = .command (BitVec.ofNat 36 (w % 2 ^ n)) :: s.inputs := rfl
@[simp] theorem withFetchWord_free (n w : Nat) : (s.withFetchWord n w).free = s.free := rfl
@[simp] theorem withFetchWord_lost (n w : Nat) : (s.withFetchWord n w).lost = s.lost := rfl

/-! `arrive`: every field but the stream and the number of bytes lost. -/

@[simp] theorem arrive_frame (b : Byte) : (arrive b s).frame = s.frame := by
  unfold arrive; split <;> rfl
@[simp] theorem arrive_st (b : Byte) : (arrive b s).st = s.st := by
  unfold arrive; split <;> rfl
@[simp] theorem arrive_rsp (b : Byte) : (arrive b s).rsp = s.rsp := by
  unfold arrive; split <;> rfl
@[simp] theorem arrive_cmd (b : Byte) : (arrive b s).cmd = s.cmd := by
  unfold arrive; split <;> rfl
@[simp] theorem arrive_busy (b : Byte) : (arrive b s).busy = s.busy := by
  unfold arrive; split <;> rfl
@[simp] theorem arrive_rspValid (b : Byte) : (arrive b s).rspValid = s.rspValid := by
  unfold arrive; split <;> rfl
@[simp] theorem arrive_phase (b : Byte) : (arrive b s).phase = s.phase := by
  unfold arrive; split <;> rfl
@[simp] theorem arrive_slack (b : Byte) : (arrive b s).slack = s.slack := by
  unfold arrive; split <;> rfl
@[simp] theorem arrive_sampled (b : Byte) : (arrive b s).sampled = s.sampled := by
  unfold arrive; split <;> rfl
@[simp] theorem arrive_claim (b : Byte) : (arrive b s).claim = s.claim := by
  unfold arrive; split <;> rfl
@[simp] theorem arrive_sent (b : Byte) : (arrive b s).sent = s.sent := by
  unfold arrive; split <;> rfl
@[simp] theorem arrive_free (b : Byte) : (arrive b s).free = s.free := by
  unfold arrive; split <;> rfl
@[simp] theorem arrive_inputs (b : Byte) : (arrive b s).inputs = s.inputs := by
  unfold arrive; split <;> rfl

end Sys2Proof.Machine
end

