-- ==== Sys2Proof/Laws/Ops.lean ====
section
/-! SUPPORT. What each shared operation can do, said once: the transport capability, a frame read, the end of an operation,
an arrival. -/

namespace Sys2Proof.Machine

variable {s t : State} {b c0 c1 c2 c3 : Byte} {rest : List Byte}

/-! The transport capability. -/

theorem keepsContract_iff : keepsContract s = true ↔ avail s = s.stream.length := by
  simp [keepsContract]

theorem avail_eq (h : keepsContract s = true) : avail s = s.stream.length := keepsContract_iff.mp h

/-- A transport with no claim of its own keeps its contract. -/
theorem keepsContract_of_honest (h : s.claim = none) : keepsContract s = true := by
  simp [keepsContract, avail, h]

theorem pop_cons (h : s.stream = b :: rest) : pop s = some (b, { s with stream := rest }) := by
  simp [pop, h]

theorem pop_eq_none_iff : pop s = none ↔ s.stream = [] := by
  unfold pop; split <;> simp_all

theorem peek_cons (h : s.stream = b :: rest) : peek s = some b := by
  simp [peek, h]

/-- A pop of SYNC, where the transport has no count of its own to answer. -/
theorem popSampled_cons (hc : s.claim = none) (h : s.stream = b :: rest) :
    popSampled s = some (b, { s with stream := rest, sampled := s.sampled - 1 }) := by
  simp [popSampled, pop_cons h, keepsContract, avail, hc]

/-- A transport that answers one count throughout breaks its contract at the first pop. -/
theorem popSampled_of_claim {n : Nat} (hc : s.claim = some n) : popSampled s = none := by
  cases h : s.stream with
  | nil => simp [popSampled, pop_eq_none_iff.mpr h]
  | cons b l =>
    have : ¬ (n = l.length + 1 ∧ n = l.length) := by omega
    simpa [popSampled, pop_cons h, keepsContract, avail, hc, h] using this

/-- Everything a pop of SYNC that answers a byte can have done. -/
theorem popSampled_some (h : popSampled s = some (b, t)) :
    s.claim = none ∧ ∃ l, s.stream = b :: l ∧ t = { s with stream := l, sampled := s.sampled - 1 } := by
  cases hc : s.claim with
  | some n => rw [popSampled_of_claim hc] at h; cases h
  | none =>
    cases hs : s.stream with
    | nil => simp [popSampled, pop_eq_none_iff.mpr hs] at h
    | cons c l => rw [popSampled_cons hc hs] at h; cases h; exact ⟨rfl, l, rfl, by rw [← hc]⟩

/-- A frame read takes the four front bytes, in order, into `F`. -/
theorem readFrame_cons (hc : s.claim = none) (h : s.stream = c0 :: c1 :: c2 :: c3 :: rest) :
    readFrame s = some { s with stream := rest, frame := ⟨c0, c1, c2, c3⟩, sampled := s.sampled - 4 } := by
  have e1 := popSampled_cons hc h
  have e2 := popSampled_cons (s := { s with stream := c1 :: c2 :: c3 :: rest, sampled := s.sampled - 1 }) hc rfl
  have e3 := popSampled_cons (s := { s with stream := c2 :: c3 :: rest, sampled := s.sampled - 1 - 1 }) hc rfl
  have e4 := popSampled_cons (s := { s with stream := c3 :: rest, sampled := s.sampled - 1 - 1 - 1 }) hc rfl
  simp only [readFrame, e1, e2, e3, e4]
  rfl

theorem popInto_cons {put : Byte → Frame → Frame} (hc : s.claim = none) (h : s.stream = b :: rest) :
    popInto put s = some { s with stream := rest, frame := put b s.frame, sampled := s.sampled - 1 } := by
  simp [popInto, popSampled_cons hc h]

/-- Everything a pop into `F` that answers can have done. -/
theorem popInto_some {put : Byte → Frame → Frame} (h : popInto put s = some t) :
    s.claim = none ∧ ∃ b l, s.stream = b :: l ∧
      t = { s with stream := l, frame := put b s.frame, sampled := s.sampled - 1 } := by
  unfold popInto at h
  split at h
  · cases h
  next hp =>
    obtain ⟨hc, l, hs, rfl⟩ := popSampled_some hp
    cases h; exact ⟨hc, _, l, hs, rfl⟩

/-- A stream of four or more bytes, by its front. -/
theorem four_bytes (h : 4 ≤ s.stream.length) :
    ∃ a0 a1 a2 a3 l, s.stream = a0 :: a1 :: a2 :: a3 :: l := by
  match hs : s.stream with
  | [] | [_] | [_, _] | [_, _, _] => simp [hs] at h
  | a0 :: a1 :: a2 :: a3 :: l => exact ⟨a0, a1, a2, a3, l, rfl⟩

/-! Arrivals. -/

theorem arrive_room (h : s.stream.length < Config.rxCapacity) :
    arrive b s = { s with stream := s.stream ++ [b] } := by
  simp [arrive, h]

theorem arrive_full (h : Config.rxCapacity ≤ s.stream.length) : arrive b s = overflow b s := by
  simp [arrive, Nat.not_lt.mpr h]

/-- The byte lost at a full stream is one of those held or the new one. -/
theorem lostAt_le (s : State) : lostAt s ≤ s.stream.length := by
  have := Nat.mod_lt (Config.rxOverflow s.lost)
    (show 0 < s.stream.length + 1 - min s.sampled s.stream.length by omega)
  simp only [lostAt]
  omega

/-- An arrival makes the count one more in a stream with room, and leaves it at the capacity. -/
theorem arrive_length (b : Byte) (s : State) :
    (s.stream.length < Config.rxCapacity ∧ (arrive b s).stream.length = s.stream.length + 1) ∨
      (Config.rxCapacity ≤ s.stream.length ∧ (arrive b s).stream.length = s.stream.length) := by
  by_cases h : s.stream.length < Config.rxCapacity
  · exact .inl ⟨h, by simp [arrive_room h]⟩
  · have hf := Nat.not_lt.mp h
    exact .inr ⟨hf, by simp [arrive_full hf, List.length_eraseIdx, lostAt_le]⟩

/-- Bytes at the front that are kept stay there: an arrival takes none of the bytes a running SYNC has sampled. -/
theorem arrive_keeps_sampled (b : Byte) (h : s.sampled ≤ s.stream.length) :
    (arrive b s).stream.take s.sampled = s.stream.take s.sampled := by
  by_cases hr : s.stream.length < Config.rxCapacity
  · simp [arrive_room hr, List.take_append_of_le_length h]
  · have hk : s.sampled ≤ lostAt s := by simp [lostAt, Nat.min_eq_left h]
    simp [arrive_full (Nat.not_lt.mp hr), List.take_eraseIdx_eq_take_of_le _ _ _ hk, List.take_append_of_le_length h]

/-! The end of an operation: `ST` before it does not show after it. -/

@[simp] theorem respond_setSt (v : Status) (d : Option DataWord) (x : DecoderState) :
    respond v d (setSt x s) = respond v d s := rfl

/-- The sampled count does not show after the end of a frame read. -/
@[simp] theorem judgeFrame_sampled (k : Nat) : judgeFrame { s with sampled := k } = judgeFrame s := rfl

@[simp] theorem judgeFrame_setSt (x : DecoderState) : judgeFrame (setSt x s) = judgeFrame s := rfl

/-- The end of a frame read is one of two responses. -/
theorem judgeFrame_cases (s : State) :
    (isValid s.frame.header s.frame.high s.frame.low s.frame.checksum = true ∧
      judgeFrame s = respond .validated (some (zext 64 (distance s.frame.high s.frame.low))) s) ∨
    (isValid s.frame.header s.frame.high s.frame.low s.frame.checksum = false ∧
      judgeFrame s = respond .checksumError none s) := by
  unfold judgeFrame
  cases isValid s.frame.header s.frame.high s.frame.low s.frame.checksum <;> simp

end Sys2Proof.Machine
end

