-- ==== Sys2Proof/Laws/PerInstr.lean ====
section
/-! SUPPORT. A statement for every instruction, one lemma per constructor: its row is in the opcode table and its word has the
row's fixed bits (30_encoding.md R69, R70). -/

namespace Sys2Proof.Laws.RowCovers

/-- The instruction's row is a row of the table, and the row covers the instruction's word. -/
def Statement (i : Instr) : Prop := i.row ∈ commandTable ∧ i.row.covers (encode i) = true

/-- The fixed bits of a word are those of its row when every bit agrees. -/
theorem covers_of_bits {r : CommandRow} {w : CmdWord}
    (h : ∀ k, k < 36 → (w.getLsbD k && r.mask.getLsbD k) = r.pattern.getLsbD k) : r.covers w = true := by
  refine beq_iff_eq.mpr (BitVec.eq_of_getLsbD_eq fun k hk => ?_)
  rw [BitVec.getLsbD_and]
  exact h k hk

theorem sync : Statement .sync := by
  refine ⟨by decide, by decide⟩

theorem check (hdr hi lo ck : Byte) : Statement (.check hdr hi lo ck) := by
  refine ⟨by simp [commandTable, Instr.row], covers_of_bits fun k hk => ?_⟩
  interval_cases k <;> simp [encode, place, Instr.row]

theorem decode (hi lo : Byte) : Statement (.decode hi lo) := by
  refine ⟨by simp [commandTable, Instr.row], covers_of_bits fun k hk => ?_⟩
  interval_cases k <;> simp [encode, place, Instr.row]

theorem tocm (mm : Millimetres) : Statement (.tocm mm) := by
  refine ⟨by simp [commandTable, Instr.row], covers_of_bits fun k hk => ?_⟩
  interval_cases k <;> simp [encode, place, Instr.row]

end Sys2Proof.Laws.RowCovers
end

