-- ==== Sys2Proof/Laws/Sync.lean ====
section
/-! SUPPORT. SYNC by the front of the stream (40_frame_synchronizer.md R91 to R97): one lemma per outcome, and the inversion of
a SYNC that answers a next state. -/

namespace Sys2Proof.Machine

variable {s t : State} {c0 c1 c2 c3 : Byte} {rest : List Byte}

theorem execSync_of_broken (h : keepsContract s = false) : execSync s = .fault .transportContract := by
  simp [execSync, h]

theorem execSync_of_short (h : keepsContract s = true) (hl : s.stream.length < 4) :
    execSync s = .next (respond .insufficientData none s) := by
  have ha : avail (setSt .seekHeader s) < Config.frameLen := by
    have : avail (setSt .seekHeader s) = avail s := rfl
    rw [this, avail_eq h]; exact hl
  simp [execSync, h, syncAttempt, ha]

theorem syncAttempt_long (hc : s.claim = none) (hs : s.stream = c0 :: c1 :: c2 :: c3 :: rest) :
    syncAttempt s =
      if c0 ≠ Config.header then .next (respond .framingError none { s with stream := c1 :: c2 :: c3 :: rest })
      else .next (judgeFrame { s with stream := rest, frame := ⟨c0, c1, c2, c3⟩ }) := by
  have ha : ¬ avail (setSt .seekHeader s) < Config.frameLen := by
    have : avail (setSt .seekHeader s) = avail s := rfl
    rw [this, avail_eq (keepsContract_of_honest hc), hs]; simp [Config.frameLen]
  simp only [syncAttempt, ha, if_false]
  rw [peek_cons (b := c0) (rest := c1 :: c2 :: c3 :: rest) (by simpa using hs)]
  by_cases h0 : c0 = Config.header
  · simp only [h0, ne_eq, not_true_eq_false, if_false]
    rw [readFrame_cons (by simpa using hc) (c0 := c0) (c1 := c1) (c2 := c2) (c3 := c3) (rest := rest) (by simpa using hs)]
    subst h0
    exact congrArg Host.Outcome.next
      (judgeFrame_sampled (s := { s with stream := rest, frame := ⟨Config.header, c1, c2, c3⟩ }) (s.sampled - 4))
  · simp only [h0, ne_eq, not_false_eq_true, if_true, rejectHeader]
    rw [popSampled_cons (b := c0) (rest := c1 :: c2 :: c3 :: rest) (by simpa using hc) (by simpa using hs)]
    rfl

theorem execSync_of_mismatch (h : s.claim = none) (hs : s.stream = c0 :: c1 :: c2 :: c3 :: rest)
    (h0 : c0 ≠ Config.header) :
    execSync s = .next (respond .framingError none { s with stream := c1 :: c2 :: c3 :: rest }) := by
  simp [execSync, keepsContract_of_honest h, syncAttempt_long h hs, h0]

theorem execSync_of_frame (h : s.claim = none) (hs : s.stream = c0 :: c1 :: c2 :: c3 :: rest)
    (h0 : c0 = Config.header) :
    execSync s = .next (judgeFrame { s with stream := rest, frame := ⟨c0, c1, c2, c3⟩ }) := by
  simp [execSync, keepsContract_of_honest h, syncAttempt_long h hs, h0]

/-- A transport that answers one count throughout breaks its contract in every SYNC that pops. -/
theorem execSync_of_claim {n : Nat} (hc : s.claim = some n) (hl : 4 ≤ s.stream.length) :
    execSync s = .fault .transportContract := by
  cases hk : keepsContract s with
  | false => exact execSync_of_broken hk
  | true =>
    obtain ⟨c0, c1, c2, c3, l, hs⟩ := four_bytes hl
    have hp : ∀ x : State, x.claim = some n → popSampled x = none := fun _ h => popSampled_of_claim h
    have ha : ¬ avail (setSt .seekHeader s) < Config.frameLen := by
      have : avail (setSt .seekHeader s) = avail s := rfl
      rw [this, avail_eq hk, hs]; simp [Config.frameLen]
    simp only [execSync, hk, if_true, syncAttempt, ha, if_false]
    rw [peek_cons (b := c0) (rest := c1 :: c2 :: c3 :: l) (by simpa using hs)]
    simp [rejectHeader, readFrame, hp, hc]

/-- Everything a SYNC that answers a next state can have done. -/
theorem execSync_next (h : execSync s = .next t) :
    (keepsContract s = true ∧ s.stream.length < 4 ∧ t = respond .insufficientData none s) ∨
      (∃ c0 c1 c2 c3 rest, s.claim = none ∧ s.stream = c0 :: c1 :: c2 :: c3 :: rest ∧ c0 ≠ Config.header ∧
        t = respond .framingError none { s with stream := c1 :: c2 :: c3 :: rest }) ∨
      (∃ c0 c1 c2 c3 rest, s.claim = none ∧ s.stream = c0 :: c1 :: c2 :: c3 :: rest ∧ c0 = Config.header ∧
        t = judgeFrame { s with stream := rest, frame := ⟨c0, c1, c2, c3⟩ }) := by
  have hn : s.claim = none ∨ ∃ n, s.claim = some n := by cases s.claim <;> simp
  by_cases hk : keepsContract s = true
  · by_cases hl : s.stream.length < 4
    · rw [execSync_of_short hk hl] at h
      exact .inl ⟨hk, hl, (Host.Outcome.next.inj h).symm⟩
    · rcases hn with hc | ⟨n, hc⟩
      · obtain ⟨c0, c1, c2, c3, l, hs⟩ := four_bytes (Nat.not_lt.mp hl)
        by_cases h0 : c0 = Config.header
        · rw [execSync_of_frame hc hs h0] at h
          exact .inr (.inr ⟨c0, c1, c2, c3, l, hc, hs, h0, (Host.Outcome.next.inj h).symm⟩)
        · rw [execSync_of_mismatch hc hs h0] at h
          exact .inr (.inl ⟨c0, c1, c2, c3, l, hc, hs, h0, (Host.Outcome.next.inj h).symm⟩)
      · rw [execSync_of_claim hc (Nat.not_lt.mp hl)] at h
        cases h
  · rw [execSync_of_broken (by simpa using hk)] at h
    cases h

/-- With a transport that keeps its contract throughout, SYNC always completes. -/
theorem execSync_completes (h : s.claim = none) : ∃ t, execSync s = .next t := by
  by_cases hl : s.stream.length < 4
  · exact ⟨_, execSync_of_short (keepsContract_of_honest h) hl⟩
  · obtain ⟨c0, c1, c2, c3, l, hs⟩ := four_bytes (Nat.not_lt.mp hl)
    by_cases h0 : c0 = Config.header
    · exact ⟨_, execSync_of_frame h hs h0⟩
    · exact ⟨_, execSync_of_mismatch h hs h0⟩

/-- SYNC is never refused, and its one fault is the broken contract of a transport with a count of its own. -/
theorem execSync_cases (s : State) :
    (∃ t, execSync s = .next t) ∨ (execSync s = .fault .transportContract ∧ s.claim ≠ none) := by
  cases hc : s.claim with
  | none => exact .inl (execSync_completes hc)
  | some n =>
    by_cases hl : s.stream.length < 4
    · cases hk : keepsContract s with
      | true => exact .inl ⟨_, execSync_of_short hk hl⟩
      | false => exact .inr ⟨execSync_of_broken hk, by simp⟩
    · exact .inr ⟨execSync_of_claim hc (Nat.not_lt.mp hl), by simp⟩

end Sys2Proof.Machine
end

