-- ==== Sys2Proof/Laws/Step.lean ====
section
/-! SUPPORT. One step, by the input at the front; a working edge, by the command and by `ST`; runs, one step at a time. -/

namespace Sys2Proof.Machine

variable {s t : State} {rest : List Input}

/-! Runs. -/

@[simp] theorem run_zero (s : State) : run 0 s = .next s := rfl

theorem run_succ_of_next (k : Nat) (h : step s = .next t) : run (k + 1) s = run k t := by
  have h' : Sys2Proof.core.step s = .next t := h
  simp only [run, Host.Core.run, h']
  rfl

theorem run_succ_of_fault (k : Nat) {r : Fault} (h : step s = .fault r) : run (k + 1) s = .fault r := by
  have h' : Sys2Proof.core.step s = .fault r := h
  simp only [run, Host.Core.run, h']
  rfl

theorem run_succ_of_refused (k : Nat) {r : Refusal} (h : step s = .refused r) : run (k + 1) s = .refused r := by
  have h' : Sys2Proof.core.step s = .refused r := h
  simp only [run, Host.Core.run, h']
  rfl

theorem run_one (s : State) : run 1 s = step s := by
  cases h : step s with
  | next t => rw [run_succ_of_next 0 h, run_zero]
  | fault r => exact run_succ_of_fault 0 h
  | refused r => exact run_succ_of_refused 0 h

/-- A run that answers a next state can be taken up by another. -/
theorem run_add_of_next (j k : Nat) (h : run j s = .next t) : run (j + k) s = run k t := by
  induction j generalizing s with
  | zero => cases h; simp
  | succ j ih =>
    rw [Nat.succ_add]
    cases hs : step s with
    | next u => rw [run_succ_of_next _ hs] at h ⊢; exact ih h
    | fault r => rw [run_succ_of_fault _ hs] at h; cases h
    | refused r => rw [run_succ_of_refused _ hs] at h; cases h

/-! A step, by the input at the front. -/

theorem step_of_nil (h : s.inputs = []) : step s = edge s := by simp [step, react, h]

theorem step_of_arrive {b : Byte} (h : s.inputs = .arrive b :: rest) :
    step s = .next (arrive b (setInputs rest s)) := by simp [step, react, h]

theorem step_of_write {b : Byte} (h : s.inputs = .write b :: rest) :
    step s = .next (write b (setInputs rest s)) := by simp [step, react, h]

theorem step_of_clock (h : s.inputs = .clock :: rest) : step s = edge (setInputs rest s) := by
  simp [step, react, h]

theorem step_of_reset (h : s.inputs = .reset :: rest) : step s = .next (resetEdge (setInputs rest s)) := by
  simp [step, react, h]

theorem step_of_miscount {c : Option Nat} (h : s.inputs = .miscount c :: rest) :
    step s = .next (setClaim c (setInputs rest s)) := by simp [step, react, h]

theorem step_of_command {w : CmdWord} (h : s.inputs = .command w :: rest) (hb : s.busy = false) :
    step s = runLatched w (latch w (setInputs rest s)) := by simp [step, react, h, hb]

theorem step_of_start {w : CmdWord} (h : s.inputs = .start w :: rest) (hb : s.busy = false) :
    step s = acceptEdge w (setInputs rest s) := by simp [step, react, h, hb]

/-- A word presented to a busy block stays presented, and the edge goes to the running operation. -/
theorem step_of_held {w : CmdWord} (h : s.inputs = .command w :: rest ∨ s.inputs = .start w :: rest)
    (hb : s.busy = true) : step s = edge s := by
  rcases h with h | h <;> simp [step, react, h, hb]

/-! A clock edge. -/

theorem edge_of_idle (h : s.busy = false) : edge s = .next (endPulse s) := by simp [edge, h]

/-- A running SYNC under a transport that breaks its contract. -/
theorem breaksSync_iff {w : CmdWord} :
    breaksSync w s = true ↔ decodeCommand w = .ok .sync ∧ keepsContract s = false := by
  simp [breaksSync]

/-- A command that is not SYNC, or a transport that keeps its contract. -/
theorem breaksSync_false_iff {w : CmdWord} :
    breaksSync w s = false ↔ (decodeCommand w = .ok .sync → keepsContract s = true) := by
  by_cases h : decodeCommand w = .ok .sync <;> simp [breaksSync, h]

theorem breaksSync_of_honest (w : CmdWord) (h : s.claim = none) : breaksSync w s = false :=
  breaksSync_false_iff.mpr fun _ => keepsContract_of_honest h

theorem edge_of_broken (hb : s.busy = true) (h : breaksSync s.cmd s = true) :
    edge s = .fault .transportContract := by simp [edge, hb, h]

theorem edge_of_wait (hb : s.busy = true) (hk : breaksSync s.cmd s = false) (h : waits s = true) :
    edge s = .next (waitEdge s) := by simp [edge, hb, hk, h]

theorem edge_of_work (hb : s.busy = true) (hk : breaksSync s.cmd s = false) (h : waits s = false) :
    edge s = workEdge s := by simp [edge, hb, hk, h]

/-- With no edge left to let pass, none is. -/
theorem waits_of_slack_zero (h : s.slack = 0) : waits s = false := by simp [waits, h]

theorem slack_pos_of_waits (h : waits s = true) : 0 < s.slack := by
  unfold waits at h; simp at h; exact h.1

/-- A command that is not SYNC completes at its first working edge, as its atomic operation does. -/
theorem workEdge_eq_runLatched (h : decodeCommand s.cmd ≠ .ok .sync) : workEdge s = runLatched s.cmd s := by
  unfold workEdge runLatched
  split <;> simp_all

theorem workEdge_of_sync (h : decodeCommand s.cmd = .ok .sync) : workEdge s = syncEdge s := by
  simp [workEdge, h]

/-- A word that is not SYNC's ends in one response that touches nothing but the response register and the sequencer. -/
theorem runLatched_of_ne_sync {w : CmdWord} (h : decodeCommand w ≠ .ok .sync) :
    (∃ d, runLatched w s = .next (respond .complete (some d) s)) ∨
      runLatched w s = .next (respond .illegalCommand none s) := by
  unfold runLatched
  match hd : decodeCommand w with
  | .illegal _ => exact .inr rfl
  | .ok (.check _ _ _ _) => exact .inl ⟨_, rfl⟩
  | .ok (.decode _ _) => exact .inl ⟨_, rfl⟩
  | .ok (.tocm _) => exact .inl ⟨_, rfl⟩
  | .ok .sync => exact absurd hd h

/-- The edge of the last transport access writes the response, or leaves it for later. -/
theorem finish_cases (s : State) :
    (waits s = true ∧ finish s = waitEdge s) ∨ (waits s = false ∧ finish s = conclude s) := by
  unfold finish; cases waits s <;> simp

/-- Before the response is due nothing is concluded; then each phase has its own. -/
theorem conclude_cases (s : State) :
    (s.phase = .few ∧ conclude s = respond .insufficientData none s) ∨
    (s.phase = .mismatch ∧ conclude s = respond .framingError none s) ∨
    (s.phase = .full ∧ conclude s = judgeFrame s) ∨
    (s.phase ≠ .few ∧ s.phase ≠ .mismatch ∧ s.phase ≠ .full ∧ conclude s = endPulse s) := by
  unfold conclude; cases s.phase <;> simp

/-- The count sampled, by whether it is below four. -/
theorem sampleCount_of_short (h : avail s < 4) : sampleCount s = { s with sampled := avail s, phase := .few } := by
  have ha : avail s < Config.frameLen := h
  simp only [sampleCount, ha, if_true]
  rfl

theorem sampleCount_of_long (h : 4 ≤ avail s) :
    sampleCount s = { s with sampled := avail s, st := .haveEnoughBytes, phase := .header } := by
  have ha : ¬ avail s < Config.frameLen := Nat.not_lt.mpr h
  simp only [sampleCount, ha, if_false]
  rfl

/-- While a command that is not SYNC runs, `ST` is not `Idle` (R29). -/
theorem busySt_ne_idle (k : Nat) : busySt k ≠ .idle := by
  unfold busySt
  dsimp only
  split_ifs <;> simp

/-- Acceptance: the count is left for a later edge, or, for SYNC, sampled here. -/
theorem accept_cases (w : CmdWord) (s : State) :
    accept w s = { latch w s with
      st := if decodeCommand w = .ok .sync then .seekHeader else busySt s.free, phase := .start, slack := Config.latExtra,
      sampled := 0 } ∨
    (decodeCommand w = .ok .sync ∧ avail s < 4 ∧
      accept w s = { latch w s with
        st := .seekHeader, phase := .few, slack := Config.latExtra, sampled := avail s }) ∨
    (decodeCommand w = .ok .sync ∧ 4 ≤ avail s ∧
      accept w s = { latch w s with
        st := .haveEnoughBytes, phase := .header, slack := Config.latExtra, sampled := avail s }) := by
  by_cases h : decodeCommand w = .ok .sync ∧ Config.freeSample s.free = true
  · have e : accept w s = sampleCount { latch w s with
        st := .seekHeader, phase := .start, slack := Config.latExtra, sampled := 0 } := by
      simp only [accept, if_pos h, if_pos h.1]
    by_cases hl : avail s < 4
    · exact .inr (.inl ⟨h.1, hl, e.trans (sampleCount_of_short hl)⟩)
    · exact .inr (.inr ⟨h.1, Nat.not_lt.mp hl, e.trans (sampleCount_of_long (Nat.not_lt.mp hl))⟩)
  · exact .inl (by simp only [accept, if_neg h])

theorem acceptEdge_cases (w : CmdWord) (s : State) :
    (breaksSync w s = true ∧ acceptEdge w s = .fault .transportContract) ∨
    (breaksSync w s = false ∧ acceptEdge w s = .next (accept w s)) := by
  unfold acceptEdge; cases breaksSync w s <;> simp

/-- The header test, by the front byte. -/
theorem testEdge_cons {c : Byte} {l : List Byte} (hc : s.claim = none) (hs : s.stream = c :: l) :
    testEdge s =
      if c ≠ Config.header then .next (finish { s with
        stream := l, sampled := s.sampled - 1, st := .rejected, phase := .mismatch })
      else .next { s with
        stream := l, sampled := s.sampled - 1, frame := Frame.putHeader c s.frame, st := .haveEnoughBytes,
        rspValid := false, phase := .high } := by
  simp only [testEdge, peek_cons hs, popSampled_cons hc hs, popInto_cons hc hs]
  rfl

theorem popEdge_cons {put : Byte → Frame → Frame} {p : Phase} {b : Byte} {l : List Byte} (hc : s.claim = none)
    (hs : s.stream = b :: l) :
    popEdge put p s = .next { s with
      stream := l, sampled := s.sampled - 1, frame := put b s.frame, rspValid := false, phase := p } := by
  simp only [popEdge, popInto_cons hc hs]
  rfl

/-- The fourth pop: `ST` shows the verdict on the four bytes in `F`. -/
theorem lastPopEdge_cons {b : Byte} {l : List Byte} (hc : s.claim = none) (hs : s.stream = b :: l) :
    lastPopEdge s = .next (finish { s with
      stream := l, sampled := s.sampled - 1, frame := Frame.putChecksum b s.frame,
      st := verdict { s with frame := Frame.putChecksum b s.frame }, phase := .full }) := by
  simp only [lastPopEdge, popInto_cons hc hs]
  rfl

theorem seekEdge_of_short (h : avail s < 4) :
    seekEdge s = .next (finish { s with sampled := avail s, phase := .few }) := by
  have ha : avail s < Config.frameLen := h
  simp [seekEdge, ha, sampleCount_of_short h]

theorem seekEdge_of_long (h : 4 ≤ avail s) :
    seekEdge s = testEdge { s with sampled := avail s, st := .haveEnoughBytes, phase := .header } := by
  have ha : ¬ avail s < Config.frameLen := Nat.not_lt.mpr h
  simp [seekEdge, ha, sampleCount_of_long h]

/-! What a step can do, said once. -/

/-- Everything the header test can have done where it answers a next state. -/
theorem testEdge_next {s t : State} (h : testEdge s = .next t) :
    s.claim = none ∧ ∃ c l, s.stream = c :: l ∧
      ((c ≠ Config.header ∧ t = finish { s with
        stream := l, sampled := s.sampled - 1, st := .rejected, phase := .mismatch }) ∨
      (c = Config.header ∧ t = { s with
        stream := l, sampled := s.sampled - 1, frame := Frame.putHeader c s.frame, st := .haveEnoughBytes,
        rspValid := false, phase := .high })) := by
  have hc : s.claim = none := by
    unfold testEdge at h
    split at h
    · cases h
    split_ifs at h
    · split at h
      · cases h
      next hp => exact (popSampled_some hp).1
    · split at h
      · cases h
      next hp => exact (popInto_some hp).1
  match hs : s.stream with
  | [] => simp [testEdge, peek, hs] at h
  | c :: l =>
    rw [testEdge_cons hc hs] at h
    refine ⟨hc, c, l, rfl, ?_⟩
    by_cases h0 : c = Config.header
    · simp only [h0, ne_eq, not_true_eq_false, if_false] at h
      exact .inr ⟨h0, by rw [h0]; exact (Host.Outcome.next.inj h).symm⟩
    · simp only [h0, ne_eq, not_false_eq_true, if_true] at h
      exact .inl ⟨h0, (Host.Outcome.next.inj h).symm⟩

/-- Everything a later pop can have done where it answers a next state. -/
theorem popEdge_next {s t : State} {put : Byte → Frame → Frame} {p : Phase} (h : popEdge put p s = .next t) :
    s.claim = none ∧ ∃ b l, s.stream = b :: l ∧
      t = { s with stream := l, sampled := s.sampled - 1, frame := put b s.frame, rspValid := false, phase := p } := by
  unfold popEdge at h
  split at h
  · cases h
  next hp =>
    obtain ⟨hc, b, l, hs, rfl⟩ := popInto_some hp
    exact ⟨hc, b, l, hs, (Host.Outcome.next.inj h).symm⟩

theorem lastPopEdge_next {s t : State} (h : lastPopEdge s = .next t) :
    s.claim = none ∧ ∃ b l, s.stream = b :: l ∧ t = finish { s with
      stream := l, sampled := s.sampled - 1, frame := Frame.putChecksum b s.frame,
      st := verdict { s with frame := Frame.putChecksum b s.frame }, phase := .full } := by
  unfold lastPopEdge at h
  split at h
  · cases h
  next hp =>
    obtain ⟨hc, b, l, hs, rfl⟩ := popInto_some hp
    exact ⟨hc, b, l, hs, (Host.Outcome.next.inj h).symm⟩

/-- Everything a working edge of SYNC that answers a next state can have done: the count was too small, the header test failed
or passed (`u` is the state once the count is sampled), a byte went into `F`, or the response was written that was due. -/
theorem syncEdge_next {s t : State} (h : syncEdge s = .next t) :
    (s.phase = .start ∧ avail s < 4 ∧ t = finish { s with sampled := avail s, phase := .few }) ∨
    (∃ u c l, ((s.phase = .start ∧ 4 ≤ avail s ∧
          u = { s with sampled := avail s, st := .haveEnoughBytes, phase := .header }) ∨
        (s.phase = .header ∧ u = s)) ∧
      s.claim = none ∧ s.stream = c :: l ∧
      ((c ≠ Config.header ∧ t = finish { u with
        stream := l, sampled := u.sampled - 1, st := .rejected, phase := .mismatch }) ∨
      (c = Config.header ∧ t = { u with
        stream := l, sampled := u.sampled - 1, frame := Frame.putHeader c u.frame, st := .haveEnoughBytes,
        rspValid := false, phase := .high }))) ∨
    (∃ b l, s.claim = none ∧ s.stream = b :: l ∧
      ((s.phase = .high ∧ t = { s with
        stream := l, sampled := s.sampled - 1, frame := Frame.putHigh b s.frame, rspValid := false, phase := .low }) ∨
      (s.phase = .low ∧ t = { s with
        stream := l, sampled := s.sampled - 1, frame := Frame.putLow b s.frame, rspValid := false,
        phase := .checksum }) ∨
      (s.phase = .checksum ∧ t = finish { s with
        stream := l, sampled := s.sampled - 1, frame := Frame.putChecksum b s.frame,
        st := verdict { s with frame := Frame.putChecksum b s.frame }, phase := .full }))) ∨
    ((s.phase = .few ∨ s.phase = .mismatch ∨ s.phase = .full) ∧ t = conclude s) := by
  unfold syncEdge at h
  split at h
  next hp =>
    by_cases hl : avail s < 4
    · rw [seekEdge_of_short hl] at h
      exact .inl ⟨hp, hl, (Host.Outcome.next.inj h).symm⟩
    · rw [seekEdge_of_long (Nat.not_lt.mp hl)] at h
      obtain ⟨hc, c, l, hs, ht⟩ := testEdge_next h
      exact .inr (.inl ⟨_, c, l, .inl ⟨hp, Nat.not_lt.mp hl, rfl⟩, hc, hs, ht⟩)
  next hp =>
    obtain ⟨hc, c, l, hs, ht⟩ := testEdge_next h
    exact .inr (.inl ⟨s, c, l, .inr ⟨hp, rfl⟩, hc, hs, ht⟩)
  next hp =>
    obtain ⟨hc, b, l, hs, ht⟩ := popEdge_next h
    exact .inr (.inr (.inl ⟨b, l, hc, hs, .inl ⟨hp, ht⟩⟩))
  next hp =>
    obtain ⟨hc, b, l, hs, ht⟩ := popEdge_next h
    exact .inr (.inr (.inl ⟨b, l, hc, hs, .inr (.inl ⟨hp, ht⟩)⟩))
  next hp =>
    obtain ⟨hc, b, l, hs, ht⟩ := lastPopEdge_next h
    exact .inr (.inr (.inl ⟨b, l, hc, hs, .inr (.inr ⟨hp, ht⟩)⟩))
  next hp => exact .inr (.inr (.inr ⟨.inl hp, (Host.Outcome.next.inj h).symm⟩))
  next hp => exact .inr (.inr (.inr ⟨.inr (.inl hp), (Host.Outcome.next.inj h).symm⟩))
  next hp => exact .inr (.inr (.inr ⟨.inr (.inr hp), (Host.Outcome.next.inj h).symm⟩))

/-- Everything a clock edge that answers a next state can have done. -/
theorem edge_next {s t : State} (h : edge s = .next t) :
    (s.busy = false ∧ t = endPulse s) ∨
    (s.busy = true ∧ breaksSync s.cmd s = false ∧ waits s = true ∧ t = waitEdge s) ∨
    (s.busy = true ∧ waits s = false ∧ decodeCommand s.cmd ≠ .ok .sync ∧
      ((∃ d, t = respond .complete (some d) s) ∨ t = respond .illegalCommand none s)) ∨
    (s.busy = true ∧ waits s = false ∧ decodeCommand s.cmd = .ok .sync ∧ keepsContract s = true ∧
      syncEdge s = .next t) := by
  cases hb : s.busy with
  | false => rw [edge_of_idle hb] at h; cases h; exact .inl ⟨rfl, rfl⟩
  | true =>
    cases hk : breaksSync s.cmd s with
    | true => rw [edge_of_broken hb hk] at h; cases h
    | false =>
      cases hs : waits s with
      | true => rw [edge_of_wait hb hk hs] at h; cases h; exact .inr (.inl ⟨rfl, rfl, rfl, rfl⟩)
      | false =>
        rw [edge_of_work hb hk hs] at h
        by_cases hd : decodeCommand s.cmd = .ok .sync
        · rw [workEdge_of_sync hd] at h
          exact .inr (.inr (.inr ⟨rfl, rfl, hd, breaksSync_false_iff.mp hk hd, h⟩))
        · rw [workEdge_eq_runLatched hd] at h
          refine .inr (.inr (.inl ⟨rfl, rfl, hd, ?_⟩))
          rcases runLatched_of_ne_sync (s := s) hd with ⟨d, e⟩ | e <;> rw [e] at h <;> cases h
          · exact .inl ⟨d, rfl⟩
          · exact .inr rfl

/-- The end of a frame read leaves the block idle. -/
theorem judgeFrame_done (s : State) : (judgeFrame s).busy = false ∧ (judgeFrame s).st = .idle ∧ (judgeFrame s).phase = .start ∧ (judgeFrame s).slack = 0 := by
  rcases judgeFrame_cases s with ⟨-, e⟩ | ⟨-, e⟩ <;> rw [e] <;> simp

/-- An atomic operation leaves the block idle, with a result. -/
theorem runLatched_done {w : CmdWord} {s t : State} (h : runLatched w s = .next t) :
   t.busy = false ∧ t.st = .idle ∧ t.phase = .start ∧ t.slack = 0 ∧ t.rspValid = true := by
  by_cases hd : decodeCommand w = .ok .sync
  · have e : runLatched w s = execSync s := by simp [runLatched, hd, exec]
    rw [e] at h
    rcases execSync_next h with ⟨-, -, rfl⟩ | ⟨_, _, _, _, _, -, -, -, rfl⟩ | ⟨_, _, _, _, _, -, -, -, rfl⟩
    · simp
    · simp
    · rcases judgeFrame_cases _ with ⟨-, e⟩ | ⟨-, e⟩ <;> rw [e] <;> simp
  · rcases runLatched_of_ne_sync (s := s) hd with ⟨d, e⟩ | e <;> rw [e] at h <;> cases h <;> simp

/-- Every step is one of these, by the input at the front. -/
theorem step_kinds (s : State) :
   (∃ b rest, s.inputs = .arrive b :: rest ∧ step s = .next (arrive b (setInputs rest s))) ∨
   (∃ b rest, s.inputs = .write b :: rest ∧ step s = .next (write b (setInputs rest s))) ∨
   (∃ b rest, s.inputs = .miscount b :: rest ∧ step s = .next (setClaim b (setInputs rest s))) ∨
   (∃ rest, s.inputs = .reset :: rest ∧ step s = .next (resetEdge (setInputs rest s))) ∨
   (∃ w rest, s.busy = false ∧ s.inputs = .start w :: rest ∧ step s = acceptEdge w (setInputs rest s)) ∨
   (∃ w rest, s.busy = false ∧ s.inputs = .command w :: rest ∧ step s = runLatched w (latch w (setInputs rest s))) ∨
   (AtClockEdge s ∧ ∃ l, step s = edge (setInputs l s) ∧ (l = s.inputs ∨ s.inputs = .clock :: l)) := by
  match h : s.inputs with
  | [] => exact .inr (.inr (.inr (.inr (.inr (.inr ⟨by simp [AtClockEdge, h], [], by rw [step_of_nil h, ← h]; rfl, .inl rfl⟩)))))
  | .arrive b :: rest => exact .inl ⟨b, rest, rfl, step_of_arrive h⟩
  | .write b :: rest => exact .inr (.inl ⟨b, rest, rfl, step_of_write h⟩)
  | .miscount b :: rest => exact .inr (.inr (.inl ⟨b, rest, rfl, step_of_miscount h⟩))
  | .reset :: rest => exact .inr (.inr (.inr (.inl ⟨rest, rfl, step_of_reset h⟩)))
  | .clock :: rest => exact .inr (.inr (.inr (.inr (.inr (.inr ⟨by simp [AtClockEdge, h], rest, step_of_clock h, .inr rfl⟩)))))
  | .start w :: rest =>
    cases hb : s.busy with
    | false => exact .inr (.inr (.inr (.inr (.inl ⟨w, rest, rfl, rfl, step_of_start h hb⟩))))
    | true => exact .inr (.inr (.inr (.inr (.inr (.inr ⟨by simp [AtClockEdge, h, hb], _, by rw [step_of_held (.inr h) hb, ← h]; rfl, .inl rfl⟩)))))
  | .command w :: rest =>
    cases hb : s.busy with
    | false => exact .inr (.inr (.inr (.inr (.inr (.inl ⟨w, rest, rfl, rfl, step_of_command h hb⟩)))))
    | true => exact .inr (.inr (.inr (.inr (.inr (.inr ⟨by simp [AtClockEdge, h, hb], _, by rw [step_of_held (.inl h) hb, ← h]; rfl, .inl rfl⟩)))))

end Sys2Proof.Machine
end

