-- ==== Sys2Proof/Tests/Slice0.lean ====
section
/-! SUPPORT. Tests: the vectors of 95_test_vectors.md on single steps, the checks of WellFormed on ill-formed terms, and for
every statement with hypotheses a concrete state that meets them. -/

namespace Sys2Proof.Tests

open Sys2Proof.Machine Sys2Proof.Machine.Assembler

/-- A ready block with the given stream. -/
def holding (stream : List Byte) : State := { State.reset with stream := stream }

/-- A ready block with the given stream and inputs. -/
def given (stream : List Byte) (inputs : List Input) : State := { State.reset with stream := stream, inputs := inputs }

/-- SYNC accepted, its count not sampled, with no edge to let pass: the reference schedule (R80). -/
def seeking (stream : List Byte) (inputs : List Input) : State :=
  { given stream inputs with busy := true, st := .seekHeader }

/-- A frame read whose header byte has been popped, with no edge to let pass (R80). -/
def reading (stream : List Byte) : State :=
  { seeking stream [] with
    st := .haveEnoughBytes, phase := .high, sampled := 3, frame := ⟨0xFF#8, 0#8, 0#8, 0#8⟩ }

/-- A frame read with one byte left to pop, with no edge to let pass (R80). -/
def lastByte (stream : List Byte) (inputs : List Input) : State :=
  { seeking stream inputs with
    st := .haveEnoughBytes, phase := .checksum, sampled := 1, frame := ⟨0xFF#8, 0x01#8, 0x90#8, 0#8⟩ }

/-! WellFormed: each check refuses an ill-formed term. -/

-- V-DEC-2, V-DEC-9, V-DEC-14, V-DEC-15, V-DEC-16.
theorem test_legal_refuses_sync_operand : legalWord 0x000000001#36 = false := by decide
theorem test_legal_refuses_decode_zero_field : legalWord 0x200010000#36 = false := by decide
theorem test_legal_refuses_tocm_zero_field : legalWord 0x380000000#36 = false := by decide
theorem test_legal_refuses_reserved_op : legalWord 0x400000000#36 = false ∧ legalWord 0xF00000000#36 = false := by
  decide
theorem test_legal_accepts : (legalWord 0x000000000#36 && legalWord 0x1FFFFFFFF#36 && legalWord 0x20000FFFF#36 &&
    legalWord 0x30000FFFF#36) = true := by decide

-- R76: a byte operand is 0 to 255 and `mm` is 0 to 65535.
theorem test_line_refuses_check_operands : AsmLine.wellFormed (.check 256 0 0 0) = false ∧
    AsmLine.wellFormed (.check 0 256 0 0) = false ∧ AsmLine.wellFormed (.check 0 0 256 0) = false ∧
    AsmLine.wellFormed (.check 0 0 0 256) = false := by decide
theorem test_line_refuses_decode_operands : AsmLine.wellFormed (.decode 256 0) = false ∧
    AsmLine.wellFormed (.decode 0 256) = false := by decide
theorem test_line_refuses_tocm_operand : AsmLine.wellFormed (.tocm 65536) = false := by decide
theorem test_line_refuses_word : AsmLine.wellFormed (.word 0x1000000000) = false := by decide
theorem test_line_refuses_checkw : AsmLine.wellFormed (.checkw 0x100000000) = false := by decide
theorem test_line_accepts : (AsmLine.wellFormed (.check 255 255 255 255) && AsmLine.wellFormed (.decode 255 255) &&
    AsmLine.wellFormed (.tocm 65535) && AsmLine.wellFormed (.word 0xFFFFFFFFF) &&
    AsmLine.wellFormed (.checkw 0xFFFFFFFF)) = true := by decide

/-! Decoding: words written out from the encoding tables (R69, R70), V-DEC-1 to V-DEC-17. -/

theorem test_decode_sync : decodeCommand 0x000000000#36 = .ok .sync := by decide
theorem test_decode_check : decodeCommand 0x1FF019090#36 = .ok (.check 0xFF#8 0x01#8 0x90#8 0x90#8) := by decide
theorem test_decode_check_field_order : decodeCommand 0x112345746#36 = .ok (.check 0x12#8 0x34#8 0x57#8 0x46#8) := by
  decide
theorem test_decode_decode : decodeCommand 0x200000190#36 = .ok (.decode 0x01#8 0x90#8) := by decide
theorem test_decode_tocm : decodeCommand 0x3000004D2#36 = .ok (.tocm 1234#16) := by decide
theorem test_decode_illegal_operand : decodeCommand 0x080000000#36 = .illegal .nonzeroField ∧
    decodeCommand 0x2FFFF0000#36 = .illegal .nonzeroField ∧ decodeCommand 0x380000000#36 = .illegal .nonzeroField := by
  decide
theorem test_decode_reserved : decodeCommand 0x400000000#36 = .illegal .reservedOp ∧
    decodeCommand 0xFFFFFFFFF#36 = .illegal .reservedOp := by decide
theorem test_encode_words : encode (.check 0xFF#8 0x01#8 0x90#8 0x90#8) = 0x1FF019090#36 ∧
    encode (.decode 0x01#8 0x90#8) = 0x200000190#36 ∧ encode (.tocm 400#16) = 0x300000190#36 ∧
    encode .sync = 0x000000000#36 := by decide
theorem test_table_word : decodeTableWord 40 0x300000190 = some (.tocm 400#16) ∧
    decodeTableWord 40 0x1300000190 = none ∧ decodeTableWord 40 0x400000000 = none := by decide

/-! The assembler (R76); the text of P4's lines. -/

theorem test_assemble_check : assembleText
    ['C', 'H', 'E', 'C', 'K', ' ', '0', 'x', 'F', 'F', ',', ' ', '1', ',', '0', 'x', '9', '0', ' ', ',', '1', '4', '4', ';', 'w'] =
      some 0x1FF019090#36 := by decide
theorem test_assemble_checkw : assembleText
    ['C', 'H', 'E', 'C', 'K', 'W', ' ', '0', 'x', 'F', 'F', '0', '1', '9', '0', '9', '0'] = some 0x1FF019090#36 := by
  decide
theorem test_assemble_word : assembleText ['.', 'w', 'o', 'r', 'd', ' ', '0', 'x', '4', '0', '0', '0', '0', '0', '0', '0', '0'] =
    some 0x400000000#36 := by decide
theorem test_assemble_out_of_range : assembleText ['T', 'O', 'C', 'M', ' ', '6', '5', '5', '3', '6'] = none := by decide
theorem test_parse_comment : parse [' ', ';', 'S', 'Y', 'N', 'C'] = .empty := by decide

/-! The four commands. -/

-- V-SYNC-12.
theorem test_sync_noise_header : ∃ t, exec .sync (holding [0xFF#8, 0xFF#8, 0x01#8, 0x90#8, 0x90#8]) = .next t ∧
    t.rsp.status = .checksumError ∧ t.stream = [0x90#8] := ⟨_, rfl, by decide⟩
-- V-SYNC-10, as a presented command.
theorem test_step_sync_lead_byte : ∃ t,
    step (given [0x00#8, 0xFF#8, 0x01#8, 0x90#8, 0x90#8] [.command 0#36]) = .next t ∧
    t.rsp.status = .framingError ∧ t.rsp.consumed = 1#3 ∧ t.stream = [0xFF#8, 0x01#8, 0x90#8, 0x90#8] := ⟨_, rfl, by decide⟩
-- V-CHECK-8 and V-CHECK-7.
theorem test_check_wraps : ∃ t, exec (.check 0xFF#8 0x00#8 0x01#8 0x00#8) (holding [0xAA#8]) = .next t ∧
    t.rsp = ⟨.complete, false, 0#3, 1#64⟩ ∧ t.stream = [0xAA#8] := ⟨_, rfl, by decide⟩
theorem test_check_fails : ∃ t, exec (.check 0x12#8 0x34#8 0x57#8 0x46#8) (holding []) = .next t ∧ t.rsp.data = 0#64 :=
  ⟨_, rfl, by decide⟩
-- V-DECODE-5 and V-DECODE-3.
theorem test_decode_no_sign : ∃ t, exec (.decode 0x80#8 0x00#8) (holding []) = .next t ∧ t.rsp.data = 0x8000#64 :=
  ⟨_, rfl, by decide⟩
theorem test_decode_byte_order : ∃ t, exec (.decode 0x01#8 0x00#8) (holding []) = .next t ∧ t.rsp.data = 0x100#64 :=
  ⟨_, rfl, by decide⟩
-- V-TOCM-2 (rounded up) and V-TOCM-11.
theorem test_tocm_tenth : ∃ t, exec (.tocm 1#16) (holding []) = .next t ∧ t.rsp.data = 0x3FB999999999999A#64 :=
  ⟨_, rfl, by decide⟩
theorem test_tocm_large : ∃ t, exec (.tocm 65534#16) (holding []) = .next t ∧ t.rsp.data = 0x40B9996666666666#64 :=
  ⟨_, rfl, by decide⟩
-- P4 step 6: an illegal word leaves the stream.
theorem test_illegal_word : ∃ t, step (given [0xAA#8] [.command 0x200010000#36]) = .next t ∧
    t.rsp.status = .illegalCommand ∧ t.stream = [0xAA#8] := ⟨_, rfl, by decide⟩

/-! Edges, reset and the transport. -/

-- R80: SYNC's frame read pops its header byte at the first edge and its checksum at the fourth.
theorem test_edge_pops_header : ∃ t, edge (seeking [0xFF#8, 0x01#8, 0x90#8, 0x90#8] []) = .next t ∧
    t.stream = [0x01#8, 0x90#8, 0x90#8] ∧ t.busy = true ∧ t.frame.header = 0xFF#8 := ⟨_, rfl, by decide⟩
theorem test_edge_completes_read : ∃ t, edge (lastByte [0x90#8] []) = .next t ∧
    t.rsp = ⟨.validated, true, 4#3, 400#64⟩ ∧ t.busy = false ∧ t.rspValid = true := ⟨_, rfl, by decide⟩
-- R25, R80: a response left for a later edge is the one that was due.
theorem test_edge_few : ∃ t, edge { seeking [0x12#8, 0x34#8, 0x56#8, 0x78#8] [] with phase := .few } = .next t ∧
    t.rsp.status = .insufficientData ∧ t.stream.length = 4 := ⟨_, rfl, by decide⟩
theorem test_edge_mismatch : ∃ t, edge { seeking [0x34#8] [] with phase := .mismatch, st := .rejected } = .next t ∧
    t.rsp.status = .framingError ∧ t.stream = [0x34#8] := ⟨_, rfl, by decide⟩
-- V-RST-1.
theorem test_reset_edge : ∃ t,
    step { given [0x12#8] [.reset] with rsp := ⟨.validated, true, 4#3, 0x190#64⟩ } = .next t ∧
    t.rsp.pack = 0x100000000000000000#71 ∧ t.stream = [0x12#8] := ⟨_, rfl, by decide⟩
-- R48: a count of 4 over an empty stream; a count that is still 4 after a pop; a wrong count at the acceptance edge.
theorem test_broken_contract : exec .sync { holding [] with claim := some 4 } = .fault .transportContract := rfl
theorem test_count_kept_after_pop :
    exec .sync { holding [0xFF#8, 0x01#8, 0x90#8, 0x90#8] with claim := some 4 } = .fault .transportContract := rfl
theorem test_start_on_broken_contract :
    step { given [0xFF#8] [.start 0#36] with claim := some 4 } = .fault .transportContract := rfl
-- R46: an arrival at the back.
theorem test_arrival : (arrive 0x90#8 (holding [0xFF#8, 0x01#8])).stream = [0xFF#8, 0x01#8, 0x90#8] := by decide

/-- A frame read in progress is consistent. -/
theorem reading_sequenced_of_le {stream : List Byte} (h : 3 ≤ stream.length) : Sequenced (reading stream) where
  idle h := by cases h
  busy _ := rfl
  other _ h := (h (show decodeCommand 0#36 = .ok .sync by decide)).elim
  sync _ _ := ⟨rfl, Nat.le_refl 3, rfl⟩
  sampled := h
  bounded := Nat.zero_le _
theorem reading_sequenced (b1 b2 b3 : Byte) : Sequenced (reading [b1, b2, b3]) := reading_sequenced_of_le (Nat.le_refl 3)

/-- A SYNC whose count is not sampled is consistent. -/
theorem seeking_sequenced (stream : List Byte) (inputs : List Input) : Sequenced (seeking stream inputs) where
  idle h := by cases h
  busy _ := rfl
  other _ h := (h (show decodeCommand 0#36 = .ok .sync by decide)).elim
  sync _ _ := ⟨rfl, rfl⟩
  sampled := Nat.zero_le _
  bounded := Nat.zero_le _

/-! Witnesses: each hypothesis of a statement met, every clause at a boundary. -/

theorem witness_DecodeThenEncode : decodeCommand 0x1FFFFFFFF#36 = .ok (.check 0xFF#8 0xFF#8 0xFF#8 0xFF#8) := by decide
theorem witness_CommandWordHasOneRow : decodeCommand 0x20000FFFF#36 = .ok (.decode 0xFF#8 0xFF#8) ∧
    decodeCommand 0x200010000#36 = .illegal .nonzeroField := by decide
theorem witness_AssemblerWords : (256 ≤ 256 ∧ 65536 ≤ 65536 ∧ 2 ^ 36 ≤ 0x1000000000 ∧ 2 ^ 32 ≤ 0x100000000) ∧ (255 < 256 ∧ 65535 < 65536 ∧ 0xFFFFFFFFF < 2 ^ 36 ∧ 0xFFFFFFFF < 2 ^ 32) ∧
    AsmLine.wellFormed (.tocm 65536) = false := by decide
theorem witness_SingleByteChangeIsDetected : isValid 0xFF#8 0x01#8 0x90#8 0x90#8 = true := by decide
theorem witness_IllegalWordCompletes : 4 ≤ opNumber 0x400000000#36 ∧
    (opNumber 0x000000001#36 = 0 ∧ operandNumber 0x000000001#36 ≠ 0) ∧
    (opNumber 0x200010000#36 = 2 ∧ operandNumber 0x200010000#36 / 2 ^ 16 ≠ 0) ∧
    (opNumber 0x380000000#36 = 3 ∧ operandNumber 0x380000000#36 / 2 ^ 16 ≠ 0) ∧
    (given [] [.command 0x400000000#36]).busy = false ∧
    (given [] [.command 0x400000000#36]).inputs = .command 0x400000000#36 :: [] := by decide
theorem witness_PureCommandsIgnoreState : Instr.tocm 0#16 ≠ .sync := by decide
theorem witness_SyncInsufficientData : keepsContract (holding [0x12#8, 0x34#8, 0x56#8]) = true ∧
    (holding [0x12#8, 0x34#8, 0x56#8]).stream.length < 4 := by decide
theorem witness_SyncFramingError : (holding [0x55#8, 0xFF#8, 0x01#8, 0x90#8]).claim = none ∧
    (holding [0x55#8, 0xFF#8, 0x01#8, 0x90#8]).stream = 0x55#8 :: [0xFF#8, 0x01#8, 0x90#8] ∧ 0x55#8 ≠ 0xFF#8 ∧
    3 ≤ [0xFF#8, 0x01#8, 0x90#8].length ∧
    (holding [0x12#8, 0x34#8, 0x56#8]).claim = none ∧ [0x34#8, 0x56#8].length < 3 := by decide
theorem witness_SyncChecksumError : (holding [0xFF#8, 0x01#8, 0x90#8, 0x91#8]).claim = none ∧
    (0xFF + (0x01#8).toNat + (0x90#8).toNat) % 256 ≠ (0x91#8).toNat := by decide
theorem witness_SyncValidated : (holding [0xFF#8, 0x00#8, 0x01#8, 0x00#8]).claim = none ∧
    (0xFF + (0x00#8).toNat + (0x01#8).toNat) % 256 = (0x00#8).toNat := by decide
theorem witness_FrameReadFillsF : (holding [0xFF#8, 0x01#8, 0x90#8, 0x91#8]).claim = none ∧
    (holding [0xFF#8, 0x01#8, 0x90#8, 0x91#8]).stream = 0xFF#8 :: 0x01#8 :: 0x90#8 :: 0x91#8 :: [] := by decide
theorem witness_SyncEqualsFunctionalForm : (holding [0xFF#8]).claim = none ∧
    (syncFn [0xFF#8]).status = .insufficientData ∧
    (syncFn [0x00#8, 0xFF#8, 0x01#8, 0x90#8]).status = .framingError ∧
    (syncFn [0xFF#8, 0x01#8, 0x90#8, 0x91#8]).status = .checksumError ∧
    syncFn [0xFF#8, 0x01#8, 0x90#8, 0x90#8, 0x07#8] = ⟨.validated, 4, some 400⟩ := by decide
theorem witness_SyncFaultsExactlyOnBrokenContract :
    exec .sync { holding [0x12#8] with claim := some 0 } = .fault .transportContract ∧
    exec .sync { holding [0x00#8, 0x00#8, 0x00#8, 0x00#8] with claim := some 4 } = .fault .transportContract ∧
    ∃ t, exec .sync { holding [0x12#8, 0x34#8, 0x56#8] with claim := some 3 } = .next t := ⟨rfl, rfl, _, rfl⟩
theorem witness_SyncMakesProgress : (∃ t,
    4 ≤ (holding [0x00#8, 0x00#8, 0x00#8, 0x00#8]).stream.length ∧
    exec .sync (holding [0x00#8, 0x00#8, 0x00#8, 0x00#8]) = .next t) ∧
    (given [0x00#8, 0x00#8, 0x00#8, 0x00#8, 0x00#8] (syncs 3)).inputs = syncs (2 + 1) ++ [] ∧
    (given [0x00#8, 0x00#8, 0x00#8, 0x00#8, 0x00#8] (syncs 3)).busy = false ∧
    (given [0x00#8, 0x00#8, 0x00#8, 0x00#8, 0x00#8] (syncs 3)).claim = none ∧
    (given [0x00#8, 0x00#8, 0x00#8, 0x00#8, 0x00#8] (syncs 3)).stream.length - 3 ≤ 2 :=
  ⟨⟨_, by decide, rfl⟩, by decide⟩
theorem witness_ResynchronizationBound :
    let s := given [0x12#8, 0x34#8, 0x55#8, 0xFF#8, 0x01#8, 0x90#8, 0x90#8] (syncs 4)
    s.busy = false ∧ s.claim = none ∧ (∀ b ∈ [0x12#8, 0x34#8, 0x55#8], b ≠ 0xFF#8) ∧
      (0x90#8).toNat = (0xFF + (0x01#8).toNat + (0x90#8).toNat) % 256 ∧
      s.stream = [0x12#8, 0x34#8, 0x55#8] ++ 0xFF#8 :: 0x01#8 :: 0x90#8 :: 0x90#8 :: [] ∧
      s.inputs = syncs (3 + 1) ++ [] := by decide
theorem witness_SyncDependsOnFrontOnly : (holding [0xFF#8, 0x01#8, 0x90#8, 0x90#8, 0x07#8]).claim = none ∧
    (holding [0xFF#8, 0x01#8, 0x90#8, 0x90#8, 0x07#8]).stream.take 4 = (holding [0xFF#8, 0x01#8, 0x90#8, 0x90#8]).stream.take 4 ∧
    (holding [0x12#8, 0x34#8, 0x56#8]).stream.length < 4 ∧ (holding []).stream.length < 4 := by decide
theorem witness_NoiseHeaderSwallowsFrame :
    (holding [0xFF#8, 0xFF#8, 0x01#8, 0x90#8, 0x90#8]).claim = none ∧
    (0x90#8).toNat = (0xFF + (0x01#8).toNat + (0x90#8).toNat) % 256 ∧
    (0xFF + 0xFF + (0x01#8).toNat) % 256 ≠ (0x90#8).toNat ∧
    (0xFE#8).toNat = (0xFF + (0x01#8).toNat + (0xFE#8).toNat) % 256 ∧
    (0xFF + 0xFF + (0x00#8).toNat) % 256 = (0xFE#8).toNat := by decide
theorem witness_TransportPrimitives : (holding []).claim = none ∧ (holding []).stream = [] ∧
    (holding [0x12#8]).stream = 0x12#8 :: [] := by decide
theorem witness_ArrivalAtBack : (given [] [.arrive 0x07#8]).inputs = .arrive 0x07#8 :: [] ∧
    (given [] [.arrive 0x07#8]).stream.length < Config.rxCapacity ∧
    Config.rxCapacity ≤ (given (List.replicate Config.rxCapacity 0x00#8) [.arrive 0x07#8]).stream.length := by
  refine ⟨rfl, ?_, ?_⟩
  · show 0 < Config.rxCapacityExtra + 4; omega
  · simp [given]
theorem witness_StreamChangesOnlyByArrivalAndPop :
    (∃ t, step (given [0xFF#8, 0x01#8, 0x90#8, 0x90#8] [.command 0#36]) = .next t) ∧
    (∃ t, step (given [] [.arrive 0x07#8]) = .next t) ∧ ∃ t, edge (reading [0x01#8, 0x90#8, 0x90#8]) = .next t :=
  ⟨⟨_, rfl⟩, ⟨_, rfl⟩, ⟨_, rfl⟩⟩
theorem witness_ResponseKeptUntilCompletion : ∃ t, step (given [] [.command 0x300000190#36]) = .next t := ⟨_, rfl⟩
theorem witness_ValidOnlyByValidatedSync :
    ∃ t, step (given [0xFF#8, 0x01#8, 0x90#8, 0x90#8] [.command 0#36]) = .next t ∧
      t.rsp ≠ (given [0xFF#8, 0x01#8, 0x90#8, 0x90#8] [.command 0#36]).rsp := ⟨_, rfl, by decide⟩
theorem witness_OnlySyncWritesFrame : Sequenced (reading [0x01#8, 0x90#8, 0x90#8]) ∧
    ∃ t, step (reading [0x01#8, 0x90#8, 0x90#8]) = .next t ∧ t.frame ≠ (reading [0x01#8, 0x90#8, 0x90#8]).frame :=
  ⟨reading_sequenced _ _ _, _, rfl, by decide⟩
theorem witness_OutsideWritesNoRegister : (given [] [.arrive 0x07#8]).inputs = .arrive 0x07#8 :: [] ∧
    (given [] [.write 0x55#8]).inputs = .write 0x55#8 :: [] ∧
    (given [] [.miscount (some 4)]).inputs = .miscount (some 4) :: [] := by decide
theorem witness_FirstDecidingTestGivesStatus :
    (given [0xFF#8, 0x01#8, 0x90#8, 0x90#8] [.command 0#36]).busy = false ∧
    (given [0xFF#8, 0x01#8, 0x90#8, 0x90#8] [.command 0#36]).claim = none ∧
    ¬ (opNumber 0x400000000#36 ≤ 3) ∧ (opNumber 0x1FFFFFFFF#36 = 1) ∧
    (opNumber 0#36 = 0 ∧ operandNumber 0#36 = 0) ∧ (holding [0x12#8, 0x34#8, 0x56#8]).stream.length < 4 := by decide
theorem witness_StepKeepsStreamBounded : StreamBounded (given [0x12#8] [.arrive 0x07#8]) ∧
    ∃ t, step (given [0x12#8] [.arrive 0x07#8]) = .next t := by
  refine ⟨?_, _, rfl⟩
  show 1 ≤ Config.rxCapacityExtra + 4; omega
theorem witness_StepKeepsResponseLegal : (given [0x12#8] [.command 0#36]).rsp.Legal ∧
    ∃ t, step (given [0x12#8] [.command 0#36]) = .next t := ⟨⟨rfl, rfl⟩, _, rfl⟩

theorem witness_StepKeepsSequenced : Sequenced (reading [0x01#8, 0x90#8, 0x90#8]) ∧
    ∃ t, step (reading [0x01#8, 0x90#8, 0x90#8]) = .next t := ⟨reading_sequenced _ _ _, _, rfl⟩
theorem witness_StepStopsOnlyOnBrokenContract : Sequenced (reading [0x01#8, 0x90#8, 0x90#8]) ∧
    step { reading [0x01#8, 0x90#8, 0x90#8] with claim := some 4 } = .fault .transportContract :=
  ⟨reading_sequenced _ _ _, rfl⟩
theorem witness_StepRunsPresentedCommand : (given [] [.command 0x300000190#36]).busy = false ∧
    (given [] [.command 0x300000190#36]).inputs = .command 0x300000190#36 :: [] ∧
    decodeCommand 0x300000190#36 = .ok (.tocm 400#16) := by decide
theorem witness_AcceptedExactlyWhenReady : (given [] [.start 0#36]).inputs = .start 0#36 :: [] ∧
    (outputs false (given [] [.start 0#36])).cmdReady = true ∧
    (outputs false (seeking [] [.start 0#36])).cmdReady = false ∧ (∃ t, step (seeking [] [.start 0#36]) = .next t) ∧
    avail { given [] [.start 0#36] with claim := some 4 } ≠ (given [] [.start 0#36]).stream.length :=
  ⟨rfl, rfl, rfl, ⟨_, rfl⟩, by decide⟩
theorem witness_PulseMarksCompletion : (∃ t, edge (reading [0x01#8, 0x90#8, 0x90#8]) = .next t) ∧
    ∃ t, edge (seeking [] []) = .next t := ⟨⟨_, rfl⟩, _, rfl⟩
theorem witness_CompletesWithinLatMax : Sequenced (reading [0x01#8, 0x90#8, 0x90#8]) ∧
    (reading [0x01#8, 0x90#8, 0x90#8]).busy = true ∧ (reading [0x01#8, 0x90#8, 0x90#8]).claim = none ∧
    (reading [0x01#8, 0x90#8, 0x90#8]).inputs = [] := ⟨reading_sequenced _ _ _, rfl, rfl, rfl⟩
theorem witness_CompletesWithinLatMax_held :
    Sequenced { reading [0x01#8, 0x90#8, 0x90#8] with inputs := [.command 0#36] } :=
  have h := reading_sequenced 0x01#8 0x90#8 0x90#8
  ⟨h.idle, h.busy, h.other, h.sync, h.sampled, h.bounded⟩
theorem witness_EdgesRefineAtomicOperation : (holding [0xFF#8]).busy = false ∧ (holding [0xFF#8]).claim = none ∧
    decodeCommand 0x300000190#36 ≠ .ok .sync := by decide
theorem witness_ArrivalsDuringReadStayBehind :
    let s := seeking [0xFF#8, 0x01#8, 0x90#8, 0x90#8]
      [.clock, .arrive 0x0A#8, .clock, .arrive 0x0B#8, .clock, .arrive 0x0C#8, .clock]
    s.busy = true ∧ s.slack = 0 ∧ s.phase = .start ∧ s.cmd = 0#36 ∧ s.claim = none ∧
      s.stream = 0xFF#8 :: 0x01#8 :: 0x90#8 :: 0x90#8 :: [] ∧
      0 + 3 + 1 ≤ Config.rxCapacity ∧ 0 + 2 + 1 + 1 ≤ Config.rxCapacity ∧ 0 + 1 + 1 + 1 + 1 ≤ Config.rxCapacity ∧
      s.inputs = .clock :: [0x0A#8].map .arrive ++ .clock :: [0x0B#8].map .arrive ++ .clock :: [0x0C#8].map .arrive ++
        [.clock] := by
  have h : 4 ≤ Config.rxCapacity := by show 4 ≤ Config.rxCapacityExtra + 4; omega
  exact ⟨rfl, rfl, rfl, rfl, rfl, rfl, h, h, h, rfl⟩
theorem witness_ArrivalCommutesWithEdge : Sequenced (reading [0x01#8, 0x90#8, 0x90#8]) ∧
    (reading [0x01#8, 0x90#8, 0x90#8]).busy = true ∧ decodeCommand (reading [0x01#8, 0x90#8, 0x90#8]).cmd = .ok .sync ∧
    (reading [0x01#8, 0x90#8, 0x90#8]).claim = none ∧
    (reading [0x01#8, 0x90#8, 0x90#8]).stream.length < Config.rxCapacity ∧
    (reading [0x01#8, 0x90#8, 0x90#8]).phase ≠ .start := by
  refine ⟨reading_sequenced _ _ _, rfl, rfl, rfl, ?_, by decide⟩
  show 3 < Config.rxCapacityExtra + 4; omega
-- Before the sample: four bytes are enough; whether a fifth has room is the implementation's (I7; log 9).
theorem witness_ArrivalCommutesWithEdge_start : Sequenced (seeking [0xFF#8, 0x01#8, 0x90#8, 0x90#8] []) ∧
    (seeking [0xFF#8, 0x01#8, 0x90#8, 0x90#8] []).phase = .start ∧
    4 ≤ (seeking [0xFF#8, 0x01#8, 0x90#8, 0x90#8] []).stream.length ∧
    (0 < Config.rxCapacityExtra → (seeking [0xFF#8, 0x01#8, 0x90#8, 0x90#8] []).stream.length < Config.rxCapacity) := by
  refine ⟨seeking_sequenced _ _, rfl, by decide, fun h => ?_⟩
  show 4 < Config.rxCapacityExtra + 4; omega
-- At the capacity.
theorem witness_ArrivalCommutesWithEdge_full :
    Sequenced (reading (List.replicate Config.rxCapacity 0x00#8)) ∧
    Config.rxCapacity ≤ (reading (List.replicate Config.rxCapacity 0x00#8)).stream.length := by
  have h : 3 ≤ (List.replicate Config.rxCapacity 0x00#8).length := by
    rw [List.length_replicate]; show 3 ≤ Config.rxCapacityExtra + 4; omega
  exact ⟨reading_sequenced_of_le h, by simp [reading, seeking, given]⟩
theorem witness_ResetAbandonsSync : ∃ u, run (0 + 1) { holding [0xFF#8] with
    inputs := .start 0#36 :: List.replicate 0 .clock ++ [.reset] } = .next u ∧ u.busy = true ∧
    (holding [0xFF#8]).busy = false ∧ (holding [0xFF#8]).claim = none :=
  ⟨_, run_one _, accept_busy _ _, rfl, rfl⟩
theorem witness_ResetCutsFrameRead :
    let s := seeking [0xFF#8, 0x01#8, 0x90#8, 0x90#8] [.clock, .clock, .clock, .reset]
    s.busy = true ∧ s.slack = 0 ∧ s.phase = .start ∧ s.cmd = 0#36 ∧ s.claim = none ∧
      s.stream = 0xFF#8 :: 0x01#8 :: 0x90#8 :: 0x90#8 :: [] ∧ 3 ≤ 3 ∧
      s.inputs = List.replicate 3 .clock ++ [.reset] := by decide
theorem witness_ResetEdgeSetsResetValues : (seeking [0x12#8] [.reset]).inputs = .reset :: [] := rfl
-- A reset edge of a running SYNC at which the count is wrong: the model's choice of log 30.
theorem witness_ResetEdgeSetsResetValues_wrongCount :
    let s := { seeking [0x12#8] [.reset] with claim := some 4 }
    s.inputs = .reset :: [] ∧ s.busy = true ∧ breaksSync s.cmd s = true ∧
      ∃ t, step s = .next t ∧ t.busy = false ∧ t.claim = some 4 := ⟨rfl, rfl, by decide, _, rfl, rfl, rfl⟩
theorem witness_RxPopRemovesFrontByte : Sequenced (reading [0x01#8, 0x90#8, 0x90#8]) ∧
    (reading [0x01#8, 0x90#8, 0x90#8]).claim = none ∧ rxPop (reading [0x01#8, 0x90#8, 0x90#8]) = true ∧
    (∃ t, edge (reading [0x01#8, 0x90#8, 0x90#8]) = .next t) ∧ rxPop (holding [0x01#8]) = false ∧
    ∃ t, edge (holding [0x01#8]) = .next t := by
  have h : 1 ≤ rxCount (reading [0x01#8, 0x90#8, 0x90#8]) := by
    have : 1 ≤ 2 ^ Config.rxCountExtra := Nat.one_le_two_pow
    show 1 ≤ min 3 (2 ^ (Config.rxCountExtra + 3) - 1)
    rw [Nat.pow_add]
    omega
  refine ⟨reading_sequenced _ _ _, rfl, ?_, ⟨_, rfl⟩, rfl, _, rfl⟩
  unfold rxPop
  rw [decide_eq_true h]
  rfl
theorem witness_CommandHeldWhileBusy : (reading [0x01#8, 0x90#8, 0x90#8]).busy = true ∧
    ∃ t, step (reading [0x01#8, 0x90#8, 0x90#8]) = .next t ∧ t.busy = true := ⟨rfl, _, rfl, rfl⟩
theorem witness_StIdleExactlyWhenNotBusy : Sequenced (reading [0x01#8, 0x90#8, 0x90#8]) ∧
    Sequenced (holding [0x01#8]) := by
  refine ⟨reading_sequenced _ _ _, ⟨fun _ => ⟨rfl, rfl, rfl, rfl⟩, ?_, ?_, ?_, Nat.zero_le _, Nat.zero_le _⟩⟩ <;>
    intro h <;> cases h
-- The last pop of a frame read, with a byte that arrives before it and without.
theorem witness_ArrivalsKeepAnswer : Sequenced (lastByte [0x90#8] []) ∧ (lastByte [0x90#8] []).busy = true ∧
    decodeCommand (lastByte [0x90#8] []).cmd = .ok .sync ∧ (lastByte [0x90#8] []).claim = none ∧
    (lastByte [0x90#8] []).phase ≠ .start ∧ (∀ i ∈ [Input.arrive 0x07#8, .clock], i.Passive) ∧
    (∃ t, run 2 { lastByte [0x90#8] [] with inputs := [.arrive 0x07#8, .clock] } = .next t ∧ t.busy = false) ∧
    ∃ u, run 1 { lastByte [0x90#8] [] with inputs := [] } = .next u ∧ u.busy = false := by
  refine ⟨⟨fun h => Bool.noConfusion (show true = false from h), fun _ => rfl, fun _ h => (h (show decodeCommand 0#36 = .ok .sync by decide)).elim,
    fun _ _ => ⟨rfl, Nat.le_refl 1, rfl⟩, Nat.le_refl 1, Nat.zero_le _⟩, rfl, rfl, rfl, by decide,
    by simp [Input.Passive], ?_, _, run_one _, rfl⟩
  obtain ⟨t, h, hb⟩ : ∃ t, step (lastByte [0x90#8, 0x07#8] [.clock]) = .next t ∧ t.busy = false := ⟨_, rfl, rfl⟩
  refine ⟨t, ?_, hb⟩
  have hr : (setInputs [.clock] { lastByte [0x90#8] [] with inputs := [.arrive 0x07#8, .clock] }).stream.length <
      Config.rxCapacity := by show 1 < Config.rxCapacityExtra + 4; omega
  rw [run_succ_of_next 1 (step_of_arrive rfl), run_one, arrive_room hr]
  exact h

end Sys2Proof.Tests
end

/-! SUPPORT. Proofs of the state family (10_state.md). First what one step can do, as inductive case lists; then the
invariants and the frame rules over every step; last the running command and its ending. -/

section
namespace Sys2Proof.Machine

variable {s t u : State} {w : CmdWord}

/-! ## What one step can do -/

/-- `SYNC` is the one word that decodes to SYNC (R71). -/
theorem eq_zero_of_decodeCommand_sync (h : decodeCommand w = .ok .sync) : w = 0#36 := by
  unfold decodeCommand at h
  dsimp only at h
  split_ifs at h with hop hopd <;> try cases h
  have hop := congrArg BitVec.toNat hop
  have hopd := congrArg BitVec.toNat hopd
  simp only [opField, operandField, BitVec.extractLsb'_toNat, Nat.shiftRight_eq_div_pow, BitVec.toNat_ofNat] at hop hopd
  exact BitVec.eq_of_toNat_eq (by simp only [BitVec.toNat_ofNat]; omega)

/-- The next states of a step, by the input that causes it. -/
inductive StepCase (s : State) : State → Prop
  | arrive {b : Byte} {rest : List Input} (hi : s.inputs = .arrive b :: rest) : StepCase s (arrive b (setInputs rest s))
  | write {b : Byte} {rest : List Input} (hi : s.inputs = .write b :: rest) : StepCase s (write b (setInputs rest s))
  | miscount {c : Option Nat} {rest : List Input} (hi : s.inputs = .miscount c :: rest) :
      StepCase s (setClaim c (setInputs rest s))
  | reset {rest : List Input} (hi : s.inputs = .reset :: rest) : StepCase s (resetEdge (setInputs rest s))
  | accept {w : CmdWord} {rest : List Input} (hb : s.busy = false) (hi : s.inputs = .start w :: rest)
      (hk : breaksSync w (setInputs rest s) = false) : StepCase s (accept w (setInputs rest s))
  | atomic {w : CmdWord} {rest : List Input} {t : State} (hb : s.busy = false) (hi : s.inputs = .command w :: rest)
      (ht : runLatched w (latch w (setInputs rest s)) = .next t) : StepCase s t
  | clockEdge {l : List Input} {t : State} (hc : AtClockEdge s) (ht : edge (setInputs l s) = .next t) : StepCase s t

theorem stepCase_of_step (h : step s = .next t) : StepCase s t := by
  rcases step_kinds s with ⟨b, rest, hi, e⟩ | ⟨b, rest, hi, e⟩ | ⟨c, rest, hi, e⟩ | ⟨rest, hi, e⟩ |
    ⟨w, rest, hb, hi, e⟩ | ⟨w, rest, hb, hi, e⟩ | ⟨hc, l, e, -⟩
  · cases e.symm.trans h; exact .arrive hi
  · cases e.symm.trans h; exact .write hi
  · cases e.symm.trans h; exact .miscount hi
  · cases e.symm.trans h; exact .reset hi
  · rcases acceptEdge_cases w (setInputs rest s) with ⟨-, e'⟩ | ⟨hk, e'⟩
    · cases (e.trans e').symm.trans h
    · cases (e.trans e').symm.trans h; exact .accept hb hi hk
  · exact .atomic hb hi (e.symm.trans h)
  · exact .clockEdge hc (e.symm.trans h)

/-- The next states of the word `w` run as one atomic operation (R31). -/
inductive AtomicCase (w : CmdWord) (s : State) : State → Prop
  | pure {v : Status} {d : Option DataWord} (hd : decodeCommand w ≠ .ok .sync) (hv : v = .complete ∨ v = .illegalCommand) :
      AtomicCase w s (respond v d s)
  | short (hd : decodeCommand w = .ok .sync) (hl : s.stream.length < 4) :
      AtomicCase w s (respond .insufficientData none s)
  | mismatch {c0 c1 c2 c3 : Byte} {rest : List Byte} (hd : decodeCommand w = .ok .sync)
      (hs : s.stream = c0 :: c1 :: c2 :: c3 :: rest) (h0 : c0 ≠ Config.header) :
      AtomicCase w s (respond .framingError none { s with stream := c1 :: c2 :: c3 :: rest })
  | frame {c0 c1 c2 c3 : Byte} {rest : List Byte} (hd : decodeCommand w = .ok .sync)
      (hs : s.stream = c0 :: c1 :: c2 :: c3 :: rest) (h0 : c0 = Config.header) :
      AtomicCase w s (judgeFrame { s with stream := rest, frame := ⟨c0, c1, c2, c3⟩ })

theorem runLatched_of_sync (hd : decodeCommand w = .ok .sync) (s : State) : runLatched w s = execSync s := by
  simp only [runLatched, hd, exec]

theorem atomicCase_of_runLatched (h : runLatched w s = .next t) : AtomicCase w s t := by
  by_cases hd : decodeCommand w = .ok .sync
  · rw [runLatched_of_sync hd] at h
    rcases execSync_next h with ⟨-, hl, rfl⟩ | ⟨_, _, _, _, _, -, hs, h0, rfl⟩ | ⟨_, _, _, _, _, -, hs, h0, rfl⟩
    · exact .short hd hl
    · exact .mismatch hd hs h0
    · exact .frame hd hs h0
  · rcases runLatched_of_ne_sync (s := s) hd with ⟨d, e⟩ | e
    · cases e.symm.trans h; exact .pure hd (.inl rfl)
    · cases e.symm.trans h; exact .pure hd (.inr rfl)

/-! The end of a frame read writes the response and the sequencer, nothing else. -/

/-- The end of a frame read, as a response. -/
theorem judgeFrame_eq_respond (s : State) :
    ∃ v d, (v = .validated ∨ v = .checksumError) ∧ judgeFrame s = respond v d s := by
  rcases judgeFrame_cases s with ⟨-, e⟩ | ⟨-, e⟩
  · exact ⟨_, _, .inl rfl, e⟩
  · exact ⟨_, _, .inr rfl, e⟩

@[simp] theorem judgeFrame_stream (s : State) : (judgeFrame s).stream = s.stream := by
  obtain ⟨v, d, -, e⟩ := judgeFrame_eq_respond s; rw [e, respond_stream]

@[simp] theorem judgeFrame_frame (s : State) : (judgeFrame s).frame = s.frame := by
  obtain ⟨v, d, -, e⟩ := judgeFrame_eq_respond s; rw [e, respond_frame]

@[simp] theorem judgeFrame_busy (s : State) : (judgeFrame s).busy = false := by
  obtain ⟨v, d, -, e⟩ := judgeFrame_eq_respond s; rw [e, respond_busy]

/-- `VALID` is 1 exactly for the status `Validated` (R27). -/
theorem validFlag_eq_true_iff (v : Status) : validFlag v = true ↔ v = .validated := by
  cases v <;> decide

/-! ## Sequenced: what keeps it (R24, R25, R29) -/

/-- A block that is not busy is consistent when `ST` and the sequencer have their idle values. -/
theorem sequenced_of_idle (hb : s.busy = false) (hst : s.st = .idle) (hp : s.phase = .start) (hk : s.slack = 0)
    (hn : s.sampled = 0) : Sequenced s where
  idle _ := ⟨hst, hp, hk, hn⟩
  busy h := by cases hb.symm.trans h
  other h := by cases hb.symm.trans h
  sync h := by cases hb.symm.trans h
  sampled := hn ▸ Nat.zero_le _
  bounded := hk ▸ Nat.zero_le _

theorem sequenced_respond (v : Status) (d : Option DataWord) (s : State) : Sequenced (respond v d s) :=
  sequenced_of_idle rfl rfl rfl rfl rfl

theorem sequenced_resetEdge (s : State) : Sequenced (resetEdge s) := sequenced_of_idle rfl rfl rfl rfl rfl

theorem sequenced_judgeFrame (s : State) : Sequenced (judgeFrame s) := by
  obtain ⟨v, d, -, e⟩ := judgeFrame_eq_respond s
  exact e ▸ sequenced_respond v d s

theorem Sequenced.endPulse (h : Sequenced s) : Sequenced (endPulse s) :=
  ⟨h.idle, fun _ => rfl, h.other, h.sync, h.sampled, h.bounded⟩

theorem Sequenced.setInputs (l : List Input) (h : Sequenced s) : Sequenced (setInputs l s) :=
  ⟨h.idle, h.busy, h.other, h.sync, h.sampled, h.bounded⟩

theorem Sequenced.waitEdge (h : Sequenced s) : Sequenced (waitEdge s) where
  idle hb := by
    obtain ⟨hst, hp, hk, hn⟩ := h.idle hb
    exact ⟨hst, hp, by simp [hk], hn⟩
  busy _ := rfl
  other := h.other
  sync := h.sync
  sampled := h.sampled
  bounded := (Nat.sub_le _ _).trans h.bounded

theorem Sequenced.conclude (h : Sequenced s) : Sequenced (conclude s) := by
  rcases conclude_cases s with ⟨-, e⟩ | ⟨-, e⟩ | ⟨-, e⟩ | ⟨-, -, -, e⟩ <;> rw [e]
  · exact sequenced_respond _ _ _
  · exact sequenced_respond _ _ _
  · exact sequenced_judgeFrame _
  · exact h.endPulse

theorem Sequenced.finish (h : Sequenced s) : Sequenced (finish s) := by
  rcases finish_cases s with ⟨-, e⟩ | ⟨-, e⟩ <;> rw [e]
  · exact h.waitEdge
  · exact h.conclude

/-- An arrival takes none of the bytes sampled, and writes nothing else. -/
theorem Sequenced.arrive (b : Byte) (h : Sequenced s) : Sequenced (arrive b s) := by
  have hl : s.sampled ≤ (Machine.arrive b s).stream.length := by
    have := h.sampled
    rcases arrive_length b s with ⟨-, e⟩ | ⟨-, e⟩ <;> omega
  by_cases hr : s.stream.length < Config.rxCapacity
  · rw [arrive_room hr] at hl ⊢
    exact ⟨h.idle, h.busy, h.other, h.sync, hl, h.bounded⟩
  · rw [arrive_full (Nat.not_lt.mp hr)] at hl ⊢
    exact ⟨h.idle, h.busy, h.other, h.sync, hl, h.bounded⟩

/-- A running SYNC is consistent when its progress is and the bytes it has sampled are there. -/
theorem sequenced_of_sync (hb : s.busy = true) (hd : decodeCommand s.cmd = .ok .sync) (hv : s.rspValid = false)
    (hp : SyncProgress s) (hn : s.sampled ≤ s.stream.length) (hk : s.slack ≤ Config.latExtra) : Sequenced s where
  idle h := by rw [hb] at h; cases h
  busy _ := hv
  other _ h := absurd hd h
  sync _ _ := hp
  sampled := hn
  bounded := hk

/-- Acceptance under a kept contract starts a consistent operation, whatever the state before (R25, R78). -/
theorem sequenced_accept (hk : breaksSync w s = false) : Sequenced (accept w s) := by
  have havail (hd : decodeCommand w = .ok .sync) : avail s ≤ s.stream.length :=
    (avail_eq (breaksSync_false_iff.mp hk hd)).le
  rcases accept_cases w s with e | ⟨hd, hl, e⟩ | ⟨hd, hl, e⟩ <;> rw [e]
  · by_cases hd : decodeCommand w = .ok .sync
    · exact sequenced_of_sync rfl hd rfl (by simp [SyncProgress, hd]) (Nat.zero_le _) le_rfl
    · exact ⟨fun h => by simp at h, fun _ => rfl, fun _ _ => by simp [hd, busySt_ne_idle],
        fun _ h => absurd h hd, Nat.zero_le _, le_rfl⟩
  · exact sequenced_of_sync rfl hd rfl ⟨rfl, hl⟩ (havail hd) le_rfl
  · exact sequenced_of_sync rfl hd rfl ⟨rfl, hl⟩ (havail hd) le_rfl

/-- A working edge of SYNC keeps the sequencer consistent. -/
theorem syncEdge_keeps_sequenced (h : Sequenced s) (hb : s.busy = true) (hd : decodeCommand s.cmd = .ok .sync)
    (hk : keepsContract s = true) (ht : syncEdge s = .next t) : Sequenced t := by
  have hp := h.sync hb hd
  have hn := h.sampled
  rcases syncEdge_next ht with ⟨hph, hl, rfl⟩ | ⟨u, c, l, hu, -, hs, htest⟩ | ⟨b, l, -, hs, hpop⟩ | ⟨-, rfl⟩
  · simp only [SyncProgress, hph] at hp
    refine Sequenced.finish ?_
    exact sequenced_of_sync hb hd (h.busy hb) ⟨hp.1, hl⟩ (avail_eq hk).le h.bounded
  · have hus : 4 ≤ u.sampled ∧ u.sampled ≤ s.stream.length ∧ u.busy = true ∧ decodeCommand u.cmd = .ok .sync ∧
        u.rspValid = false ∧ u.slack ≤ Config.latExtra := by
      rcases hu with ⟨-, hl, rfl⟩ | ⟨hph, rfl⟩
      · exact ⟨hl, (avail_eq hk).le, hb, hd, h.busy hb, h.bounded⟩
      · simp only [SyncProgress, hph] at hp
        exact ⟨hp.2, hn, hb, hd, h.busy hb, h.bounded⟩
    obtain ⟨h4, hle, hub, hud, huv, huk⟩ := hus
    rw [hs, List.length_cons] at hle
    rcases htest with ⟨-, rfl⟩ | ⟨h0, rfl⟩
    · refine Sequenced.finish ?_
      exact sequenced_of_sync hub hud huv rfl (show u.sampled - 1 ≤ l.length by omega) huk
    · exact sequenced_of_sync hub hud rfl ⟨rfl, show 3 ≤ u.sampled - 1 by omega, h0⟩
        (show u.sampled - 1 ≤ l.length by omega) huk
  · have hl : s.sampled - 1 ≤ l.length := by rw [hs, List.length_cons] at hn; omega
    rcases hpop with ⟨hph, rfl⟩ | ⟨hph, rfl⟩ | ⟨hph, rfl⟩ <;> simp only [SyncProgress, hph] at hp <;>
      obtain ⟨hst, hm, hf⟩ := hp
    · exact sequenced_of_sync hb hd rfl ⟨hst, show 2 ≤ s.sampled - 1 by omega, hf⟩ hl h.bounded
    · exact sequenced_of_sync hb hd rfl ⟨hst, show 1 ≤ s.sampled - 1 by omega, hf⟩ hl h.bounded
    · refine Sequenced.finish ?_
      exact sequenced_of_sync hb hd (h.busy hb) ⟨rfl, hf⟩ hl h.bounded
  · exact h.conclude

theorem edge_keeps_sequenced (h : Sequenced s) (ht : edge s = .next t) : Sequenced t := by
  rcases edge_next ht with ⟨-, rfl⟩ | ⟨-, -, -, rfl⟩ | ⟨-, -, -, ⟨d, rfl⟩ | rfl⟩ | ⟨hb, -, hd, hk, hw⟩
  · exact h.endPulse
  · exact h.waitEdge
  · exact sequenced_respond _ _ _
  · exact sequenced_respond _ _ _
  · exact syncEdge_keeps_sequenced h hb hd hk hw

theorem runLatched_sequenced (ht : runLatched w s = .next t) : Sequenced t := by
  cases atomicCase_of_runLatched ht with
  | pure => exact sequenced_respond _ _ _
  | short => exact sequenced_respond _ _ _
  | mismatch => exact sequenced_respond _ _ _
  | frame => exact sequenced_judgeFrame _

/-- Settles O41: by the input that causes the step. -/
theorem stepKeepsSequenced : Obligations.StepKeepsSequenced := by
  intro s t h ht
  cases stepCase_of_step ht with
  | arrive => exact (h.setInputs _).arrive _
  | write => exact ⟨h.idle, h.busy, h.other, h.sync, h.sampled, h.bounded⟩
  | miscount => exact ⟨h.idle, h.busy, h.other, h.sync, h.sampled, h.bounded⟩
  | reset => exact sequenced_resetEdge _
  | accept _ _ hk => exact sequenced_accept hk
  | atomic _ _ ht => exact runLatched_sequenced ht
  | clockEdge _ ht => exact edge_keeps_sequenced (h.setInputs _) ht

/-! ## What a clock edge does to each register -/

/-- `u` is `s` once the transport access of a clock edge is made: only SYNC pops a byte and writes `F`. -/
structure Accessed (s u : State) : Prop where
  rsp : u.rsp = s.rsp
  cmd : u.cmd = s.cmd
  busy : u.busy = s.busy
  claim : u.claim = s.claim
  inputs : u.inputs = s.inputs
  stream : u.stream = s.stream ∨ (s.busy = true ∧ decodeCommand s.cmd = .ok .sync ∧ ∃ b, s.stream = b :: u.stream)
  frame : u.frame = s.frame ∨
    (s.busy = true ∧ decodeCommand s.cmd = .ok .sync ∧ (Sequenced s → u.frame.header = 0xFF#8))

/-- The next states of a clock edge: the block goes on, or the running operation completes; `Validated` is SYNC's alone. -/
inductive EdgeCase (s : State) : State → Prop
  | goesOn {t : State} (ha : Accessed s t) : EdgeCase s t
  | completes {u : State} {v : Status} {d : Option DataWord} (ha : Accessed s u) (hb : s.busy = true)
      (hv : v = .validated → decodeCommand s.cmd = .ok .sync) : EdgeCase s (respond v d u)

theorem Accessed.refl (s : State) : Accessed s s := ⟨rfl, rfl, rfl, rfl, rfl, .inl rfl, .inl rfl⟩

theorem Accessed.endPulse (h : Accessed s u) : Accessed s (endPulse u) :=
  ⟨h.rsp, h.cmd, h.busy, h.claim, h.inputs, h.stream, h.frame⟩

theorem Accessed.waitEdge (h : Accessed s u) : Accessed s (waitEdge u) :=
  ⟨h.rsp, h.cmd, h.busy, h.claim, h.inputs, h.stream, h.frame⟩

theorem Accessed.conclude (h : Accessed s u) (hb : s.busy = true) (hd : decodeCommand s.cmd = .ok .sync) :
    EdgeCase s (conclude u) := by
  rcases conclude_cases u with ⟨-, e⟩ | ⟨-, e⟩ | ⟨-, e⟩ | ⟨-, -, -, e⟩ <;> rw [e]
  · exact .completes h hb fun _ => hd
  · exact .completes h hb fun _ => hd
  · obtain ⟨v, d, -, e⟩ := judgeFrame_eq_respond u
    exact e ▸ .completes h hb fun _ => hd
  · exact .goesOn h.endPulse

theorem Accessed.finish (h : Accessed s u) (hb : s.busy = true) (hd : decodeCommand s.cmd = .ok .sync) :
    EdgeCase s (finish u) := by
  rcases finish_cases u with ⟨-, e⟩ | ⟨-, e⟩ <;> rw [e]
  · exact .goesOn h.waitEdge
  · exact h.conclude hb hd

/-- While SYNC has bytes after the header to pop, `F` holds a header (R95). -/
theorem Sequenced.header_of_reading (h : Sequenced s) (hb : s.busy = true) (hd : decodeCommand s.cmd = .ok .sync)
    (hph : s.phase = .high ∨ s.phase = .low ∨ s.phase = .checksum) : s.frame.header = 0xFF#8 := by
  have hp := h.sync hb hd
  rcases hph with hph | hph | hph <;> simp only [SyncProgress, hph] at hp <;> exact hp.2.2

theorem syncEdge_case (hb : s.busy = true) (hd : decodeCommand s.cmd = .ok .sync) (ht : syncEdge s = .next t) :
    EdgeCase s t := by
  rcases syncEdge_next ht with ⟨-, -, rfl⟩ | ⟨u, c, l, hu, -, hs, htest⟩ | ⟨b, l, -, hs, hpop⟩ | ⟨-, rfl⟩
  · refine Accessed.finish ?_ hb hd
    exact ⟨rfl, rfl, rfl, rfl, rfl, .inl rfl, .inl rfl⟩
  · have hu : Accessed s u := by
      rcases hu with ⟨-, -, rfl⟩ | ⟨-, rfl⟩
      · exact ⟨rfl, rfl, rfl, rfl, rfl, .inl rfl, .inl rfl⟩
      · exact .refl _
    rcases htest with ⟨-, rfl⟩ | ⟨h0, rfl⟩
    · refine Accessed.finish ?_ hb hd
      exact ⟨hu.rsp, hu.cmd, hu.busy, hu.claim, hu.inputs, .inr ⟨hb, hd, c, hs⟩, hu.frame⟩
    · exact .goesOn ⟨hu.rsp, hu.cmd, hu.busy, hu.claim, hu.inputs, .inr ⟨hb, hd, c, hs⟩,
        .inr ⟨hb, hd, fun _ => h0⟩⟩
  · rcases hpop with ⟨hph, rfl⟩ | ⟨hph, rfl⟩ | ⟨hph, rfl⟩
    · exact .goesOn ⟨rfl, rfl, rfl, rfl, rfl, .inr ⟨hb, hd, b, hs⟩,
        .inr ⟨hb, hd, fun h => h.header_of_reading hb hd (.inl hph)⟩⟩
    · exact .goesOn ⟨rfl, rfl, rfl, rfl, rfl, .inr ⟨hb, hd, b, hs⟩,
        .inr ⟨hb, hd, fun h => h.header_of_reading hb hd (.inr (.inl hph))⟩⟩
    · refine Accessed.finish ?_ hb hd
      exact ⟨rfl, rfl, rfl, rfl, rfl, .inr ⟨hb, hd, b, hs⟩,
        .inr ⟨hb, hd, fun h => h.header_of_reading hb hd (.inr (.inr hph))⟩⟩
  · exact (Accessed.refl s).conclude hb hd

/-- A clock edge makes at most one transport access, and a busy block may complete. -/
theorem edgeCase_of_edge (ht : edge s = .next t) : EdgeCase s t := by
  rcases edge_next ht with ⟨-, rfl⟩ | ⟨-, -, -, rfl⟩ | ⟨hb, -, -, ⟨d, rfl⟩ | rfl⟩ | ⟨hb, -, hd, -, hw⟩
  · exact .goesOn (Accessed.refl s).endPulse
  · exact .goesOn (Accessed.refl s).waitEdge
  · exact .completes (.refl s) hb nofun
  · exact .completes (.refl s) hb nofun
  · exact syncEdge_case hb hd hw

/-- Whether or not the operation completes, an edge leaves the stream, `F` and the inputs as its access left them. -/
theorem EdgeCase.access (h : EdgeCase s t) :
    ∃ u, Accessed s u ∧ t.stream = u.stream ∧ t.frame = u.frame ∧ t.inputs = u.inputs := by
  cases h with
  | goesOn ha => exact ⟨t, ha, rfl, rfl, rfl⟩
  | completes ha => exact ⟨_, ha, rfl, rfl, rfl⟩

/-- An edge that leaves the block busy does not complete the operation. -/
theorem EdgeCase.accessed_of_busy (h : EdgeCase s t) (hb : t.busy = true) : Accessed s t := by
  cases h with
  | goesOn ha => exact ha
  | completes => cases hb

/-! ## The stream (R20, R21, R47) -/

/-- What `syncFn` takes is in the stream. -/
theorem syncFn_consumed_le (x : List Byte) : (syncFn x).consumed ≤ x.length := by
  unfold syncFn
  split
  · split_ifs <;> simp
  · exact Nat.zero_le _

theorem syncFn_consumed_of_mismatch {c0 c1 c2 c3 : Byte} {rest : List Byte} (h0 : c0 ≠ Config.header) :
    (syncFn (c0 :: c1 :: c2 :: c3 :: rest)).consumed = 1 := by
  have h : c0.toNat ≠ 0xFF := fun e => h0 (BitVec.eq_of_toNat_eq e)
  rw [syncFn, if_pos h]

theorem syncFn_consumed_of_frame {c0 c1 c2 c3 : Byte} {rest : List Byte} (h0 : c0 = Config.header) :
    (syncFn (c0 :: c1 :: c2 :: c3 :: rest)).consumed = 4 := by
  rw [h0, syncFn, if_neg (by decide)]
  split_ifs <;> rfl

/-- An atomic operation takes from the front of the stream what `syncFn` takes, if it is SYNC, and nothing else. -/
theorem runLatched_stream (ht : runLatched w s = .next t) :
    t.stream = s.stream ∨
      (decodeCommand w = .ok .sync ∧ t.stream = s.stream.drop (syncFn s.stream).consumed) := by
  cases atomicCase_of_runLatched ht with
  | pure => exact .inl rfl
  | short => exact .inl rfl
  | mismatch hd hs h0 => exact .inr ⟨hd, by rw [hs, syncFn_consumed_of_mismatch h0]; rfl⟩
  | frame hd hs h0 => exact .inr ⟨hd, by rw [hs, syncFn_consumed_of_frame h0, judgeFrame_stream]; rfl⟩

/-- The byte that arrives goes to the back, or one byte is lost at the capacity and the order stays (R46, R54). -/
theorem arrive_stream (b : Byte) (s : State) :
    (arrive b s).stream = s.stream ++ [b] ∨
      (Config.rxCapacity ≤ s.stream.length ∧ (arrive b s).stream.length = s.stream.length ∧
        (arrive b s).stream.Sublist (s.stream ++ [b])) := by
  rcases arrive_length b s with ⟨hr, -⟩ | ⟨hf, hl⟩
  · exact .inl (by rw [arrive_room hr])
  · refine .inr ⟨hf, hl, ?_⟩
    rw [arrive_full hf]
    exact List.eraseIdx_sublist _ _

/-- Settles O33: by the input that causes the step; at a clock edge by its one transport access. -/
theorem streamChangesOnlyByArrivalAndPop : Obligations.StreamChangesOnlyByArrivalAndPop := by
  intro s t ht
  by_cases hkept : t.stream = s.stream
  · exact .inr ⟨0, Nat.zero_le _, hkept, fun h => absurd rfl h⟩
  cases stepCase_of_step ht with
  | @arrive b rest hi => exact .inl ⟨b, rest, hi, arrive_stream b (setInputs rest s)⟩
  | write => exact absurd rfl hkept
  | miscount => exact absurd rfl hkept
  | reset => exact absurd rfl hkept
  | accept => exact absurd (accept_stream _ _) hkept
  | @atomic w rest _ hb hi hw =>
    obtain ⟨hd, e⟩ := (runLatched_stream hw).resolve_left hkept
    exact .inr ⟨_, syncFn_consumed_le _, e, fun _ => .inr ⟨rfl, hb, rest, eq_zero_of_decodeCommand_sync hd ▸ hi⟩⟩
  | clockEdge hc hw =>
    obtain ⟨u, hu, e, -⟩ := (edgeCase_of_edge hw).access
    obtain ⟨hb, hd, b, e'⟩ := hu.stream.resolve_left fun h => hkept (e.trans h)
    have e' : s.stream = b :: t.stream := by rw [e]; exact e'
    exact .inr ⟨1, by simp [e'], by simp [e'], fun _ => .inl ⟨rfl, hb, hd, hc⟩⟩

/-- Settles O39: an arrival is bounded by the capacity, and every other step leaves a suffix of the stream (O33). -/
theorem stepKeepsStreamBounded : Obligations.StepKeepsStreamBounded := by
  intro s t h ht
  unfold StreamBounded at *
  rcases streamChangesOnlyByArrivalAndPop s t ht with ⟨b, rest, hi, -⟩ | ⟨k, -, e, -⟩
  · cases (step_of_arrive hi).symm.trans ht
    rcases arrive_length b (setInputs rest s) with ⟨hr, e⟩ | ⟨-, e⟩
    · exact e ▸ hr
    · exact e ▸ h
  · rw [e, List.length_drop]
    exact (Nat.sub_le _ _).trans h

/-! ## The registers (R22, R26, R27, R29) -/

/-- Settles O34: by the input that causes the step. -/
theorem responseKeptUntilCompletion : Obligations.ResponseKeptUntilCompletion := by
  intro s t ht
  cases stepCase_of_step ht with
  | arrive => exact .inl (arrive_rsp _ _)
  | write => exact .inl rfl
  | miscount => exact .inl rfl
  | reset hi => exact .inr (.inl ⟨_, hi⟩)
  | accept => exact .inl (accept_rsp _ _)
  | atomic _ hi hw =>
    obtain ⟨hb, -, -, -, hv⟩ := runLatched_done hw
    exact .inr (.inr ⟨hb, hv, .inr ⟨_, _, hi⟩⟩)
  | clockEdge _ hw =>
    cases edgeCase_of_edge hw with
    | goesOn ha => exact .inl ha.rsp
    | completes _ hb => exact .inr (.inr ⟨rfl, rfl, .inl hb⟩)

/-- `VALID` belongs to the status, and `Validated` to SYNC, in the response of an atomic operation (R27). -/
theorem runLatched_valid (ht : runLatched w s = .next t) :
    t.rsp.valid = true ↔ t.rsp.status = .validated ∧ decodeCommand w = .ok .sync := by
  cases atomicCase_of_runLatched ht with
  | pure hd hv => rcases hv with rfl | rfl <;> simp [validFlag]
  | short => simp [validFlag]
  | mismatch => simp [validFlag]
  | frame hd =>
    obtain ⟨v, d, -, e⟩ := judgeFrame_eq_respond _
    rw [e]
    simp [validFlag_eq_true_iff, hd]

/-- Settles O35: a step changes the response by a reset, an atomic operation or the completing edge of a running one. -/
theorem validOnlyByValidatedSync : Obligations.ValidOnlyByValidatedSync := by
  intro s t ht hne
  cases stepCase_of_step ht with
  | arrive => exact absurd (arrive_rsp _ _) hne
  | write => exact absurd rfl hne
  | miscount => exact absurd rfl hne
  | reset => simp [Response.reset]
  | accept => exact absurd (accept_rsp _ _) hne
  | @atomic w rest _ hb hi hw =>
    rw [runLatched_valid hw]
    refine and_congr_right fun _ => ⟨fun hd => .inr ⟨hb, rest, eq_zero_of_decodeCommand_sync hd ▸ hi⟩, ?_⟩
    rintro (⟨hb', -⟩ | ⟨-, _, hi'⟩)
    · cases hb.symm.trans hb'
    · cases hi.symm.trans hi'
      decide
  | clockEdge _ hw =>
    cases edgeCase_of_edge hw with
    | goesOn ha => exact absurd ha.rsp hne
    | completes _ hb hv =>
      simp only [respond_rsp, validFlag_eq_true_iff]
      exact ⟨fun h => ⟨h, .inl ⟨hb, hv h⟩⟩, And.left⟩

/-- An atomic operation writes `F` only if it is SYNC, with a header (R95). -/
theorem runLatched_frame (ht : runLatched w s = .next t) :
    t.frame = s.frame ∨ (decodeCommand w = .ok .sync ∧ t.frame.header = 0xFF#8) := by
  cases atomicCase_of_runLatched ht with
  | pure => exact .inl rfl
  | short => exact .inl rfl
  | mismatch => exact .inl rfl
  | frame hd _ h0 => exact .inr ⟨hd, by rw [judgeFrame_frame]; exact h0⟩

/-- Settles O36: by the input that causes the step; at a clock edge by its one transport access. -/
theorem onlySyncWritesFrame : Obligations.OnlySyncWritesFrame := by
  intro s t ht
  cases stepCase_of_step ht with
  | arrive => exact .inl (arrive_frame _ _)
  | write => exact .inl rfl
  | miscount => exact .inl rfl
  | reset hi => exact .inr (.inl ⟨_, hi⟩)
  | accept => exact .inl (accept_frame _ _)
  | atomic hb hi hw =>
    rcases runLatched_frame hw with e | ⟨hd, h0⟩
    · exact .inl e
    · exact .inr (.inr ⟨.inr ⟨hb, _, eq_zero_of_decodeCommand_sync hd ▸ hi⟩, fun _ => h0⟩)
  | clockEdge _ hw =>
    obtain ⟨u, hu, -, e, -⟩ := (edgeCase_of_edge hw).access
    rcases hu.frame with hf | ⟨hb, hd, hf⟩
    · exact .inl (e.trans hf)
    · exact .inr (.inr ⟨.inl ⟨hb, hd⟩, fun h => e ▸ hf (h.setInputs _)⟩)

/-- Settles O57: only a clock edge that does not complete leads from busy to busy, and it makes an access at most. -/
theorem commandHeldWhileBusy : Obligations.CommandHeldWhileBusy := by
  intro s t ht hb hb'
  cases stepCase_of_step ht with
  | arrive => exact arrive_cmd _ _
  | write => rfl
  | miscount => rfl
  | reset => cases hb'
  | accept hi => cases hi.symm.trans hb
  | atomic hi => cases hi.symm.trans hb
  | clockEdge _ hw => exact ((edgeCase_of_edge hw).accessed_of_busy hb').cmd

/-! ## Reset, a presented command, and `ST` (R24, R29, R31, R34) -/

/-- Settles O42: the state after reset is idle, with an empty stream and the reset response. -/
theorem resetMeetsInvariants : Obligations.ResetMeetsInvariants := by
  exact ⟨Nat.zero_le _, ⟨rfl, rfl⟩, sequenced_of_idle rfl rfl rfl rfl rfl⟩

/-- Settles O44: `runLatched` on a word that decodes to a command is `exec`. -/
theorem stepRunsPresentedCommand : Obligations.StepRunsPresentedCommand := by
  intro s w i rest hb hi hd
  rw [step_of_command hi hb]
  simp only [runLatched, hd]
  rfl

/-- Settles O54: by evaluation of the reset state. -/
theorem resetStateValues : Obligations.ResetStateValues := by
  refine ⟨rfl, rfl, rfl, ?_⟩
  decide

theorem verdict_ne_idle (s : State) : verdict s ≠ .idle := by
  unfold verdict
  split_ifs <;> decide

/-- SYNC in progress has `ST` other than `Idle` in every phase (R25). -/
theorem SyncProgress.st_ne_idle (h : SyncProgress s) : s.st ≠ .idle := by
  cases hph : s.phase <;> simp only [SyncProgress, hph] at h
  case full => exact h.1 ▸ verdict_ne_idle s
  case mismatch => simp [h]
  all_goals simp [h.1]

/-- Settles O58: busy, the command is SYNC in progress or another one, and `ST` is not `Idle` in either. -/
theorem stIdleExactlyWhenNotBusy : Obligations.StIdleExactlyWhenNotBusy := by
  intro s h
  refine ⟨fun hb => ?_, fun hst => ?_⟩
  · by_cases hd : decodeCommand s.cmd = .ok .sync
    · exact (h.sync hb hd).st_ne_idle
    · exact (h.other hb hd).1
  · by_contra hb
    exact hst (h.idle (by simpa using hb)).1

end Sys2Proof.Machine
end

section
namespace Sys2Proof.Machine

variable {s t u : State} {w : CmdWord}

/-! ## A running command and its ending (R31, R80)

The ending of a running command is the outcome it comes to without any further arrival. A clock edge either gives that outcome
or goes on to a state with the same ending and fewer edges left. -/

/-- The working edges an operation still needs at most, the response's among them (R80). -/
def Phase.worksLeft : Phase → Nat
  | .start => 4
  | .header => 4
  | .high => 3
  | .low => 2
  | .checksum => 1
  | .few => 1
  | .mismatch => 1
  | .full => 1

/-- The edges to the response at most: those that may pass unused, and the working ones. -/
def edgesLeft (s : State) : Nat := s.slack + s.phase.worksLeft

/-- What the running command comes to: before its first pop its atomic operation, during a frame read the verdict on the frame
completed from the front of the stream, and at last the response that is due. -/
def ending (s : State) : Host.Outcome State Fault Refusal :=
  match s.phase with
  | .start => runLatched s.cmd s
  | .header => runLatched s.cmd s
  | .high => .next (judgeFrame { s with
      stream := s.stream.drop 3
      frame := ⟨s.frame.header, s.stream.getD 0 0#8, s.stream.getD 1 0#8, s.stream.getD 2 0#8⟩ })
  | .low => .next (judgeFrame { s with
      stream := s.stream.drop 2
      frame := ⟨s.frame.header, s.frame.high, s.stream.getD 0 0#8, s.stream.getD 1 0#8⟩ })
  | .checksum => .next (judgeFrame { s with
      stream := s.stream.drop 1, frame := ⟨s.frame.header, s.frame.high, s.frame.low, s.stream.getD 0 0#8⟩ })
  | .few => .next (conclude s)
  | .mismatch => .next (conclude s)
  | .full => .next (conclude s)

/-- A running command that has met no fault: under a claimed count a SYNC has not popped yet (R48; log 13). -/
structure Running (s : State) : Prop where
  sequenced : Sequenced s
  busy : s.busy = true
  count : decodeCommand s.cmd = .ok .sync →
    s.claim = none ∨ (keepsContract s = true ∧ (s.phase = .start ∨ s.phase = .header ∨ s.phase = .few))

/-- `t` is `s` some edges on: the command still runs, to the same ending. -/
structure Continues (s t : State) : Prop where
  running : Running t
  same : ending t = ending s
  fewer : edgesLeft t < edgesLeft s
  sampled : s.phase ≠ .start → t.phase ≠ .start

/-- An edge of `s` gives its ending, or goes on to it. -/
def EdgeAdvances (s : State) : Prop := edge s = ending s ∨ ∃ t, edge s = .next t ∧ Continues s t

theorem edgesLeft_pos (s : State) : 1 ≤ edgesLeft s := by
  unfold edgesLeft
  cases s.phase <;> simp [Phase.worksLeft]

theorem Running.keeps (h : Running s) : breaksSync s.cmd s = false := by
  refine breaksSync_false_iff.mpr fun hd => ?_
  rcases h.count hd with hc | ⟨hk, -⟩
  · exact keepsContract_of_honest hc
  · exact hk

/-! An operation's outcome does not depend on how the sequencer stood before it. -/

theorem execSync_sequencer (s : State) (d : DecoderState) (v : Bool) (p : Phase) (k n : Nat) :
    execSync { s with st := d, rspValid := v, phase := p, slack := k, sampled := n } = execSync s := by
  cases hk : keepsContract s with
  | false => rw [execSync_of_broken hk, execSync_of_broken (by exact hk)]
  | true =>
    by_cases hl : s.stream.length < 4
    · rw [execSync_of_short hk hl, execSync_of_short (by exact hk) (by exact hl)]
      rfl
    have hl := Nat.not_lt.mp hl
    by_cases hc : s.claim = none
    · obtain ⟨c0, c1, c2, c3, l, hs⟩ := four_bytes hl
      by_cases h0 : c0 = Config.header
      · rw [execSync_of_frame hc hs h0, execSync_of_frame (by exact hc) (by exact hs) h0]
        rfl
      · rw [execSync_of_mismatch hc hs h0, execSync_of_mismatch (by exact hc) (by exact hs) h0]
        rfl
    · obtain ⟨m, hc⟩ := Option.ne_none_iff_exists'.mp hc
      rw [execSync_of_claim hc hl, execSync_of_claim (by exact hc) (by exact hl)]

theorem runLatched_sequencer (w : CmdWord) (s : State) (d : DecoderState) (v : Bool) (p : Phase) (k n : Nat) :
    runLatched w { s with st := d, rspValid := v, phase := p, slack := k, sampled := n } = runLatched w s := by
  unfold runLatched
  match decodeCommand w with
  | .illegal _ => rfl
  | .ok .sync => exact execSync_sequencer s d v p k n
  | .ok (.check _ _ _ _) => rfl
  | .ok (.decode _ _) => rfl
  | .ok (.tocm _) => rfl

/-- An edge that passes unused does not change what the command comes to. -/
theorem ending_waitEdge (s : State) : ending (waitEdge s) = ending s := by
  have hrun : runLatched s.cmd (waitEdge s) = runLatched s.cmd s :=
    runLatched_sequencer s.cmd s s.st false s.phase (s.slack - 1) s.sampled
  unfold ending conclude
  simp only [waitEdge_phase, waitEdge_cmd, hrun]
  cases s.phase <;> rfl

/-- A command accepted under a kept contract comes to what its atomic operation comes to. -/
theorem ending_accept (hk : breaksSync w s = false) : ending (accept w s) = runLatched w (latch w s) := by
  rcases accept_cases w s with e | ⟨hd, hl, e⟩ | ⟨hd, hl, e⟩ <;> rw [e]
  · exact runLatched_sequencer w (latch w s) _ _ _ _ _
  · have hkeep := breaksSync_false_iff.mp hk hd
    rw [runLatched_of_sync hd, execSync_of_short (by exact hkeep) (by rw [avail_eq hkeep] at hl; exact hl)]
    rfl
  · exact runLatched_sequencer w (latch w s) _ _ _ _ _

theorem running_accept (hk : breaksSync w s = false) : Running (accept w s) where
  sequenced := sequenced_accept hk
  busy := accept_busy _ _
  count hd := by
    rw [accept_cmd] at hd
    have hkeep : keepsContract (accept w s) = true := by
      have := breaksSync_false_iff.mp hk hd
      simpa [keepsContract, avail] using this
    refine .inr ⟨hkeep, ?_⟩
    rcases accept_cases w s with e | ⟨-, -, e⟩ | ⟨-, -, e⟩ <;> simp [e]

theorem edgesLeft_accept_le (w : CmdWord) (s : State) : edgesLeft (accept w s) ≤ Config.latMax := by
  unfold edgesLeft Config.latMax
  rw [accept_slack]
  rcases accept_cases w s with e | ⟨-, -, e⟩ | ⟨-, -, e⟩ <;> simp [e, Phase.worksLeft]

/-! One edge of a running command. -/

/-- The edge of SYNC's last transport access, at which the response is written or left for later. -/
theorem edge_of_finish (h : Running s) (he : edge s = .next (finish u)) (hb : u.busy = true)
    (hc : u.claim = none ∨ (keepsContract u = true ∧ u.phase = .few))
    (hp : u.phase = .few ∨ u.phase = .mismatch ∨ u.phase = .full) (hend : ending s = .next (conclude u))
    (hl : edgesLeft u ≤ edgesLeft s) : EdgeAdvances s := by
  have hu : ending u = .next (conclude u) := by
    rcases hp with hp | hp | hp <;> simp only [ending, hp]
  rcases finish_cases u with ⟨hw, e⟩ | ⟨-, e⟩ <;> rw [e] at he
  · refine .inr ⟨_, he, ⟨edge_keeps_sequenced h.sequenced he, hb, fun _ => ?_⟩, ?_, ?_, fun _ => ?_⟩
    · exact hc.imp_right fun ⟨hk, hf⟩ => ⟨hk, .inr (.inr hf)⟩
    · rw [ending_waitEdge, hu, hend]
    · have := slack_pos_of_waits hw
      simp only [edgesLeft, waitEdge_slack, waitEdge_phase] at hl ⊢
      omega
    · rw [waitEdge_phase]
      rcases hp with hp | hp | hp <;> simp [hp]
  · exact .inl (he.trans hend.symm)

/-- An edge of a SYNC that pops without a claimed count and goes on to the same ending. -/
theorem continues_of_honest (h : Running s) (he : edge s = .next t) (hb : t.busy = true) (hc : t.claim = none)
    (hend : ending t = ending s) (hl : edgesLeft t < edgesLeft s) (hp : t.phase ≠ .start) :
    ∃ t, edge s = .next t ∧ Continues s t :=
  ⟨t, he, ⟨edge_keeps_sequenced h.sequenced he, hb, fun _ => .inl hc⟩, hend, hl, fun _ => hp⟩

/-- The edge of a pop into `F` between the header's and the checksum's. -/
theorem edge_of_popEdge {put : Byte → Frame → Frame} {p : Phase} (h : Running s) (hc : s.claim = none)
    (hl : 0 < s.stream.length) (he : edge s = popEdge put p s) (hp : p ≠ .start)
    (hw : p.worksLeft < s.phase.worksLeft)
    (hend : ∀ b l, s.stream = b :: l → ending { s with
      stream := l, sampled := s.sampled - 1, frame := put b s.frame, rspValid := false, phase := p } = ending s) :
    ∃ t, edge s = .next t ∧ Continues s t := by
  obtain ⟨b, l, hs⟩ := List.exists_cons_of_length_pos hl
  rw [popEdge_cons hc hs] at he
  exact continues_of_honest h he h.busy hc (hend b l hs) (Nat.add_lt_add_left hw s.slack) hp

/-- Under a claimed count the first pop is the fault (R48). -/
theorem testEdge_of_claim {n : Nat} (hc : s.claim = some n) (hl : 4 ≤ s.stream.length) :
    testEdge s = .fault .transportContract := by
  obtain ⟨c0, c1, c2, c3, l, hs⟩ := four_bytes hl
  simp [testEdge, peek_cons hs, popInto, popSampled_of_claim hc]

/-- The header test of a running SYNC with the sampled count `u.sampled`; its edge and its ending are those of `s`. -/
theorem edge_of_test (h : Running s) (he : edge s = testEdge u) (hb : u.busy = true) (hend : ending s = execSync u)
    (h4 : 4 ≤ u.stream.length) (hl : edgesLeft u ≤ edgesLeft s) (hp : u.phase = .header) :
    EdgeAdvances s := by
  cases hc : u.claim with
  | some n =>
    rw [testEdge_of_claim hc h4] at he
    rw [execSync_of_claim hc h4] at hend
    exact .inl (he.trans hend.symm)
  | none =>
    obtain ⟨c0, c1, c2, c3, l, hs⟩ := four_bytes h4
    rw [testEdge_cons hc hs] at he
    simp only [edgesLeft, hp, Phase.worksLeft] at hl
    by_cases h0 : c0 = Config.header
    · rw [if_neg (not_not.mpr h0)] at he
      rw [execSync_of_frame hc hs h0] at hend
      refine .inr (continues_of_honest h he hb hc ?_ ?_ (by simp))
      · rw [hend]
        rfl
      · simp only [edgesLeft, Phase.worksLeft]
        omega
    · rw [if_pos h0] at he
      rw [execSync_of_mismatch hc hs h0] at hend
      refine edge_of_finish h he hb (.inl hc) (.inr (.inl rfl)) hend ?_
      simp only [edgesLeft, Phase.worksLeft]
      omega

/-- A working edge of a running SYNC, by its phase. -/
theorem edge_of_sync (h : Running s) (hd : decodeCommand s.cmd = .ok .sync) (he : edge s = syncEdge s) :
    EdgeAdvances s := by
  have hk := breaksSync_false_iff.mp h.keeps hd
  have hp := h.sequenced.sync h.busy hd
  have hn := h.sequenced.sampled
  have hclaim (hph : s.phase ≠ .start ∧ s.phase ≠ .header ∧ s.phase ≠ .few) : s.claim = none :=
    (h.count hd).resolve_right fun ⟨_, hor⟩ => by simp [hph] at hor
  cases hph : s.phase with
  | start =>
    have hend : ending s = execSync s := by simp only [ending, hph, runLatched_of_sync hd]
    simp only [syncEdge, hph] at he
    by_cases hl : avail s < 4
    · rw [seekEdge_of_short hl] at he
      rw [execSync_of_short hk (avail_eq hk ▸ hl)] at hend
      refine edge_of_finish h he h.busy (.inr ⟨hk, rfl⟩) (.inl rfl) hend ?_
      simp [edgesLeft, hph, Phase.worksLeft]
    · have hl := Nat.not_lt.mp hl
      rw [seekEdge_of_long hl] at he
      refine edge_of_test h he h.busy ?_ (avail_eq hk ▸ hl) (by simp [edgesLeft, hph, Phase.worksLeft]) rfl
      exact hend.trans (execSync_sequencer s .haveEnoughBytes s.rspValid .header s.slack (avail s)).symm
  | header =>
    simp only [SyncProgress, hph] at hp
    simp only [syncEdge, hph] at he
    refine edge_of_test h he h.busy ?_ (hp.2.trans hn) le_rfl hph
    simp only [ending, hph, runLatched_of_sync hd]
  | high =>
    simp only [SyncProgress, hph] at hp
    simp only [syncEdge, hph] at he
    refine .inr (edge_of_popEdge h (hclaim (by simp [hph])) (by omega) he nofun (by rw [hph]; decide) fun b l hs => ?_)
    simp only [ending, hph, hs]
    rfl
  | low =>
    simp only [SyncProgress, hph] at hp
    simp only [syncEdge, hph] at he
    refine .inr (edge_of_popEdge h (hclaim (by simp [hph])) (by omega) he nofun (by rw [hph]; decide) fun b l hs => ?_)
    simp only [ending, hph, hs]
    rfl
  | checksum =>
    simp only [SyncProgress, hph] at hp
    simp only [syncEdge, hph] at he
    obtain ⟨b, l, hs⟩ := List.exists_cons_of_length_pos (show 0 < s.stream.length by omega)
    rw [lastPopEdge_cons (hclaim (by simp [hph])) hs] at he
    refine edge_of_finish h he h.busy (.inl (hclaim (by simp [hph]))) (.inr (.inr rfl)) ?_ ?_
    · simp only [ending, hph, hs]
      rfl
    · simp [edgesLeft, hph, Phase.worksLeft]
  | few => exact .inl (he.trans (by simp only [syncEdge, ending, hph]))
  | mismatch => exact .inl (he.trans (by simp only [syncEdge, ending, hph]))
  | full => exact .inl (he.trans (by simp only [syncEdge, ending, hph]))

theorem edge_of_running (h : Running s) : EdgeAdvances s := by
  cases hw : waits s with
  | true =>
    have he := edge_of_wait h.busy h.keeps hw
    refine .inr ⟨_, he, ⟨edge_keeps_sequenced h.sequenced he, h.busy, h.count⟩, ending_waitEdge s, ?_, id⟩
    have := slack_pos_of_waits hw
    simp only [edgesLeft, waitEdge_slack, waitEdge_phase]
    omega
  | false =>
    have he := edge_of_work h.busy h.keeps hw
    by_cases hd : decodeCommand s.cmd = .ok .sync
    · exact edge_of_sync h hd (he.trans (workEdge_of_sync hd))
    · obtain ⟨-, hph, -⟩ := h.sequenced.other h.busy hd
      exact .inl (he.trans (by simp only [workEdge_eq_runLatched hd, ending, hph]))

/-- An edge leaves what is presented as it is. -/
theorem edge_inputs (ht : edge s = .next t) : t.inputs = s.inputs := by
  obtain ⟨u, hu, -, -, e⟩ := (edgeCase_of_edge ht).access
  exact e.trans hu.inputs

/-- Run with nothing presented, a running command comes to its ending within the edges it has left, busy until then (R80). -/
theorem run_of_running (h : Running s) (hi : s.inputs = []) :
    ∃ n, 1 ≤ n ∧ n ≤ edgesLeft s ∧ run n s = ending s ∧
      ∀ m, m < n → ∃ t, run m s = .next t ∧ t.busy = true := by
  induction hk : edgesLeft s using Nat.strong_induction_on generalizing s with
  | _ k ih =>
    subst hk
    have hstep := step_of_nil hi
    rcases edge_of_running h with he | ⟨t, he, hc⟩
    · refine ⟨1, le_rfl, edgesLeft_pos s, by rw [run_one, hstep, he], fun m hm => ?_⟩
      exact ⟨s, by rw [Nat.lt_one_iff.mp hm, run_zero], h.busy⟩
    · obtain ⟨n, -, hn, hrun, hbusy⟩ := ih _ hc.fewer hc.running ((edge_inputs he).trans hi) rfl
      have hrest (m : Nat) : run (m + 1) s = run m t := run_succ_of_next m (hstep.trans he)
      refine ⟨n + 1, Nat.le_add_left 1 n, hn.trans_lt hc.fewer, (hrest n).trans (hrun.trans hc.same), fun m hm => ?_⟩
      cases m with
      | zero => exact ⟨s, run_zero s, h.busy⟩
      | succ m => exact hrest m ▸ hbusy m (Nat.lt_of_succ_lt_succ hm)

/-- An atomic operation faults only as a SYNC under a count of the transport's own. -/
theorem runLatched_completes (h : decodeCommand w ≠ .ok .sync ∨ s.claim = none) : ∃ t, runLatched w s = .next t := by
  by_cases hd : decodeCommand w = .ok .sync
  · rw [runLatched_of_sync hd]
    exact execSync_completes (h.resolve_left (not_not.mpr hd))
  · rcases runLatched_of_ne_sync (s := s) hd with ⟨d, e⟩ | e
    · exact ⟨_, e⟩
    · exact ⟨_, e⟩

/-- A SYNC accepted under a broken contract faults at its first edge and as an atomic operation. -/
theorem runLatched_of_broken (hk : breaksSync w s = true) :
    runLatched w (latch w s) = .fault .transportContract := by
  obtain ⟨hd, hk⟩ := breaksSync_iff.mp hk
  rw [runLatched_of_sync hd]
  exact execSync_of_broken hk

/-- Settles O48: the accepted command's ending is the outcome of its atomic operation. -/
theorem edgesRefineAtomicOperation : Obligations.EdgesRefineAtomicOperation := by
  intro s w hb
  have hatomic : run 1 { s with inputs := [.command w] } = runLatched w (latch w (setInputs [] s)) :=
    (run_one _).trans (step_of_command rfl hb)
  have hstart : step { s with inputs := [.start w] } = acceptEdge w (setInputs [] s) := step_of_start rfl hb
  rw [hatomic]
  rcases acceptEdge_cases w (setInputs [] s) with ⟨hk, e⟩ | ⟨hk, e⟩ <;> rw [e] at hstart
  · refine ⟨1, le_rfl, Nat.le_add_left 1 _, ?_, fun h => ?_⟩
    · rw [run_succ_of_fault _ hstart, runLatched_of_broken hk]
    · rcases h with hd | hc
      · exact absurd (breaksSync_iff.mp hk).1 hd
      · cases hk.symm.trans (breaksSync_of_honest w hc)
  · obtain ⟨n, h1, hn, hrun, hbusy⟩ := run_of_running (running_accept hk) (accept_inputs _ _)
    have hrest (m : Nat) : run (m + 1) { s with inputs := [.start w] } = run m (accept w (setInputs [] s)) :=
      run_succ_of_next m hstart
    refine ⟨n, h1, hn.trans (edgesLeft_accept_le _ _), ?_, fun h => ⟨runLatched_completes h, fun m hm => ?_⟩⟩
    · rw [hrest, hrun, ending_accept hk]
    · exact hrest m ▸ hbusy m hm

/-! ## Arrivals after the sample (R53, R105)

The response and `F` of the ending depend on the sampled bytes alone, which no arrival touches; so they are the same at every
state that edges and arrivals lead to. -/

/-- A running SYNC whose count is sampled, under a transport that keeps its contract. -/
structure Sampled (s : State) : Prop where
  running : Running s
  sync : decodeCommand s.cmd = .ok .sync
  honest : s.claim = none
  phase : s.phase ≠ .start

/-- `t` stands as `s` does, as far as SYNC can tell: the bytes sampled are the same. -/
structure SameFront (s t : State) : Prop where
  phase : t.phase = s.phase
  cmd : t.cmd = s.cmd
  claim : t.claim = s.claim
  frame : t.frame = s.frame
  free : t.free = s.free
  front : t.stream.take s.sampled = s.stream.take s.sampled

/-- SYNC's answer at `s` is `r`, with `f` in `F`: it has ended so, or it comes to that. -/
inductive Answered (r : Response) (f : Frame) (s : State) : Prop
  | ended (hb : s.busy = false) (hr : s.rsp = r) (hf : s.frame = f)
  | toCome (h : Sampled s) {e : State} (he : ending s = .next e) (hr : e.rsp = r) (hf : e.frame = f)

/-- Two outcomes are states with the same response and the same bytes in `F`. -/
def SameAnswer (o o' : Host.Outcome State Fault Refusal) : Prop :=
  ∃ e e', o = .next e ∧ o' = .next e' ∧ e'.rsp = e.rsp ∧ e'.frame = e.frame

theorem sameAnswer_respond (v : Status) (d : Option DataWord) (hf : t.frame = s.frame) (hn : t.free = s.free) :
    SameAnswer (.next (respond v d s)) (.next (respond v d t)) :=
  ⟨_, _, rfl, rfl, by simp [hn], hf⟩

theorem sameAnswer_judgeFrame (hf : t.frame = s.frame) (hn : t.free = s.free) :
    SameAnswer (.next (judgeFrame s)) (.next (judgeFrame t)) := by
  simp only [judgeFrame, hf]
  split_ifs
  · exact sameAnswer_respond _ _ hf hn
  · exact sameAnswer_respond _ _ hf hn

theorem getD_eq_of_take_eq {x y : List Byte} {n i : Nat} (h : x.take n = y.take n) (hi : i < n) (d : Byte) :
    x.getD i d = y.getD i d := by
  rw [List.getD_eq_getElem?_getD, List.getD_eq_getElem?_getD, ← List.getElem?_take_of_lt hi, h,
    List.getElem?_take_of_lt hi]

/-- Under a kept contract a running command has an ending that is a state, and it is an idle one. -/
theorem ending_completes (h : s.claim = none) : ∃ e, ending s = .next e ∧ e.busy = false := by
  have hrun : ∃ e, runLatched s.cmd s = .next e ∧ e.busy = false := by
    obtain ⟨e, he⟩ := runLatched_completes (w := s.cmd) (.inr h)
    exact ⟨e, he, (runLatched_done he).1⟩
  unfold ending conclude
  cases s.phase with
  | start => exact hrun
  | header => exact hrun
  | high => exact ⟨_, rfl, judgeFrame_busy _⟩
  | low => exact ⟨_, rfl, judgeFrame_busy _⟩
  | checksum => exact ⟨_, rfl, judgeFrame_busy _⟩
  | few => exact ⟨_, rfl, rfl⟩
  | mismatch => exact ⟨_, rfl, rfl⟩
  | full => exact ⟨_, rfl, judgeFrame_busy _⟩

/-- The atomic attempt answers by the four bytes at the front (R102). -/
theorem execSync_answer (hc : s.claim = none) (hl : 4 ≤ s.stream.length) (hc' : t.claim = none)
    (hfront : t.stream.take 4 = s.stream.take 4) (hf : t.frame = s.frame) (hn : t.free = s.free) :
    SameAnswer (execSync s) (execSync t) := by
  have hl' : 4 ≤ t.stream.length := by
    have := congrArg List.length hfront
    simp only [List.length_take] at this
    omega
  obtain ⟨c0, c1, c2, c3, l, hs⟩ := four_bytes hl
  obtain ⟨d0, d1, d2, d3, m, ht⟩ := four_bytes hl'
  rw [hs, ht] at hfront
  obtain ⟨rfl, rfl, rfl, rfl⟩ : d0 = c0 ∧ d1 = c1 ∧ d2 = c2 ∧ d3 = c3 := by simpa using hfront
  by_cases h0 : d0 = Config.header
  · rw [execSync_of_frame hc hs h0, execSync_of_frame hc' ht h0]
    exact sameAnswer_judgeFrame rfl hn
  · rw [execSync_of_mismatch hc hs h0, execSync_of_mismatch hc' ht h0]
    exact sameAnswer_respond _ _ hf hn

/-- The answer a SYNC comes to depends on the sampled bytes only. -/
theorem ending_answer (h : Sampled s) (hst : SameFront s t) : SameAnswer (ending s) (ending t) := by
  have hp := h.running.sequenced.sync h.running.busy h.sync
  have hbyte {i : Nat} (hi : i < s.sampled) : t.stream.getD i 0#8 = s.stream.getD i 0#8 :=
    getD_eq_of_take_eq hst.front hi _
  unfold ending conclude
  rw [hst.phase, hst.cmd]
  cases hph : s.phase <;> simp only [SyncProgress, hph] at hp
  case start => exact absurd hph h.phase
  case header =>
    have hfront : t.stream.take 4 = s.stream.take 4 := by
      have := congrArg (List.take 4) hst.front
      simpa [List.take_take, hp.2] using this
    simp only [runLatched_of_sync h.sync]
    exact execSync_answer h.honest (hp.2.trans h.running.sequenced.sampled) (hst.claim.trans h.honest) hfront hst.frame
      hst.free
  case high =>
    refine sameAnswer_judgeFrame ?_ hst.free
    simp only [hst.frame, hbyte (i := 0) (by omega), hbyte (i := 1) (by omega), hbyte (i := 2) (by omega)]
  case low =>
    refine sameAnswer_judgeFrame ?_ hst.free
    simp only [hst.frame, hbyte (i := 0) (by omega), hbyte (i := 1) (by omega)]
  case checksum =>
    refine sameAnswer_judgeFrame ?_ hst.free
    simp only [hst.frame, hbyte (i := 0) (by omega)]
  case few => exact sameAnswer_respond _ _ hst.frame hst.free
  case mismatch => exact sameAnswer_respond _ _ hst.frame hst.free
  case full => exact sameAnswer_judgeFrame hst.frame hst.free

theorem Sampled.answered (h : Sampled s) : ∃ r f, Answered r f s := by
  obtain ⟨e, he, -⟩ := ending_completes h.honest
  exact ⟨e.rsp, e.frame, .toCome h he rfl rfl⟩

variable {r : Response} {f : Frame}

theorem Answered.setInputs (l : List Input) (h : Answered r f s) : Answered r f (setInputs l s) := by
  cases h with
  | ended hb hr hf => exact .ended hb hr hf
  | toCome h he hr hf =>
    obtain ⟨_, e', he₁, he', hr', hf'⟩ := ending_answer (t := Machine.setInputs l s) h ⟨rfl, rfl, rfl, rfl, rfl, rfl⟩
    cases he₁.symm.trans he
    exact .toCome ⟨⟨h.running.sequenced.setInputs l, h.running.busy, h.running.count⟩, h.sync, h.honest, h.phase⟩ he'
      (hr'.trans hr) (hf'.trans hf)

/-- A byte that arrives after the sample does not change the answer, at the capacity too (R53). -/
theorem Answered.arrive (b : Byte) (h : Answered r f s) : Answered r f (arrive b s) := by
  cases h with
  | ended hb hr hf => exact .ended (by simpa using hb) (by simpa using hr) (by simpa using hf)
  | toCome h he hr hf =>
    have hfront : SameFront s (Machine.arrive b s) :=
      ⟨by simp, by simp, by simp, by simp, by simp, arrive_keeps_sampled b h.running.sequenced.sampled⟩
    obtain ⟨_, e', he₁, he', hr', hf'⟩ := ending_answer h hfront
    cases he₁.symm.trans he
    have hc : (Machine.arrive b s).claim = none := hfront.claim.trans h.honest
    refine .toCome ⟨⟨h.running.sequenced.arrive b, ?_, fun _ => .inl hc⟩, ?_, hc, ?_⟩ he' (hr'.trans hr) (hf'.trans hf)
    · exact (arrive_busy s b).trans h.running.busy
    · exact hfront.cmd ▸ h.sync
    · exact hfront.phase ▸ h.phase

/-- A clock edge gives the answer or goes on to it, and keeps the one given. -/
theorem Answered.edge (h : Answered r f s) (ht : edge s = .next t) : Answered r f t := by
  cases h with
  | ended hb hr hf =>
    cases (edge_of_idle hb).symm.trans ht
    exact .ended hb hr hf
  | toCome h he hr hf =>
    rcases edge_of_running h.running with e | ⟨u, hu, hc⟩
    · cases (e.trans he).symm.trans ht
      obtain ⟨_, he', hb⟩ := ending_completes h.honest
      cases he'.symm.trans he
      exact .ended hb hr hf
    · cases hu.symm.trans ht
      have ha := (edgeCase_of_edge ht).accessed_of_busy hc.running.busy
      exact .toCome ⟨hc.running, ha.cmd ▸ h.sync, ha.claim.trans h.honest, hc.sampled h.phase⟩ (hc.same.trans he) hr hf

/-- With only arrivals and clock edges to come, a step is one of these. -/
theorem step_of_passive (hp : ∀ i ∈ s.inputs, i.Passive) (ht : step s = .next t) :
    ∃ l, (∀ i ∈ l, i.Passive) ∧ ((∃ b, t = arrive b (setInputs l s)) ∨ edge (setInputs l s) = .next t) := by
  match hi : s.inputs with
  | [] => exact ⟨[], by simp, .inr (by rw [← ht, step_of_nil hi, ← hi]; rfl)⟩
  | i :: l =>
    rw [hi, List.forall_mem_cons] at hp
    refine ⟨l, hp.2, ?_⟩
    match i, hp.1 with
    | .arrive b, _ => exact .inl ⟨b, (Host.Outcome.next.inj ((step_of_arrive hi).symm.trans ht)).symm⟩
    | .clock, _ => exact .inr ((step_of_clock hi).symm.trans ht)

/-- A run over arrivals and clock edges keeps the answer. -/
theorem run_keeps_answered {n : Nat} (hp : ∀ i ∈ s.inputs, i.Passive) (h : Answered r f s) (ht : run n s = .next t) :
    Answered r f t := by
  induction n generalizing s with
  | zero => cases ht; exact h
  | succ n ih =>
    cases hs : step s with
    | fault => rw [run_succ_of_fault n hs] at ht; cases ht
    | refused => rw [run_succ_of_refused n hs] at ht; cases ht
    | next u =>
      rw [run_succ_of_next n hs] at ht
      obtain ⟨l, hl, ⟨b, rfl⟩ | he⟩ := step_of_passive hp hs
      · exact ih (by simpa using hl) ((h.setInputs l).arrive b) ht
      · exact ih (by rw [edge_inputs he]; exact hl) ((h.setInputs l).edge he) ht

theorem Answered.of_idle (h : Answered r f s) (hb : s.busy = false) : s.rsp = r ∧ s.frame = f := by
  cases h with
  | ended _ hr hf => exact ⟨hr, hf⟩
  | toCome h => cases hb.symm.trans h.running.busy

/-- Settles O59: both runs keep the answer that the sampled bytes fix. -/
theorem arrivalsKeepAnswer : Obligations.ArrivalsKeepAnswer := by
  intro s t u ins n hseq hb hd hc hph hins ht htb hu hub
  obtain ⟨r, f, h⟩ := Sampled.answered ⟨⟨hseq, hb, fun _ => .inl hc⟩, hd, hc, hph⟩
  obtain ⟨htr, htf⟩ := (run_keeps_answered hins (h.setInputs ins) ht).of_idle htb
  obtain ⟨hur, huf⟩ := (run_keeps_answered (by simp) (h.setInputs []) hu).of_idle hub
  exact ⟨htr.trans hur.symm, htf.trans huf.symm⟩

end Sys2Proof.Machine
end

/-! SUPPORT. Proofs of the memory family (20_memory.md): the transport's operations, where a step can stop, and the bytes that
arrive while a SYNC runs. -/

section
namespace Sys2Proof.Machine

variable {s t u : State} {w : CmdWord}

/-! ## The transport's operations (R42 to R46) -/

/-- Settles O31: with no count of its own the transport answers the number of bytes it holds. -/
theorem transportPrimitives : Obligations.TransportPrimitives := by
  intro s hc
  refine ⟨avail_eq (keepsContract_of_honest hc), fun h => ⟨?_, pop_eq_none_iff.mpr h⟩, fun b rest h => ?_⟩
  · simp [peek, h]
  · exact ⟨peek_cons h, pop_cons h⟩

/-- The byte lost at a full stream is none of those that a running SYNC has sampled (R53). -/
theorem sampled_le_lostAt (s : State) : min s.sampled s.stream.length ≤ lostAt s :=
  Nat.le_add_right _ _

/-- Settles O32: by whether the stream has room; the byte lost at a full one is at `lostAt`. -/
theorem arrivalAtBack : Obligations.ArrivalAtBack := by
  intro s b rest hi
  rw [step_of_arrive hi]
  refine ⟨fun hr => ?_, fun hf => ⟨lostAt s, sampled_le_lostAt s, lostAt_le s, ?_⟩⟩
  · rw [arrive_room (by exact hr)]
    rfl
  · rw [arrive_full (by exact hf)]
    rfl

/-! ## What is sent (R45) -/

@[simp] theorem judgeFrame_sent (s : State) : (judgeFrame s).sent = s.sent := by
  obtain ⟨v, d, -, e⟩ := judgeFrame_eq_respond s; rw [e, respond_sent]

@[simp] theorem conclude_sent (s : State) : (conclude s).sent = s.sent := by
  rcases conclude_cases s with ⟨-, e⟩ | ⟨-, e⟩ | ⟨-, e⟩ | ⟨-, -, -, e⟩ <;> simp [e]

@[simp] theorem finish_sent (s : State) : (finish s).sent = s.sent := by
  rcases finish_cases s with ⟨-, e⟩ | ⟨-, e⟩ <;> simp [e]

theorem syncEdge_sent (h : syncEdge s = .next t) : t.sent = s.sent := by
  rcases syncEdge_next h with ⟨-, -, rfl⟩ | ⟨u, c, l, hu, -, -, htest⟩ | ⟨b, l, -, -, hpop⟩ | ⟨-, rfl⟩
  · exact finish_sent _
  · have hu : u.sent = s.sent := by rcases hu with ⟨-, -, rfl⟩ | ⟨-, rfl⟩ <;> rfl
    rcases htest with ⟨-, rfl⟩ | ⟨-, rfl⟩
    · exact (finish_sent _).trans hu
    · exact hu
  · rcases hpop with ⟨-, rfl⟩ | ⟨-, rfl⟩ | ⟨-, rfl⟩
    · rfl
    · rfl
    · exact finish_sent _
  · exact conclude_sent _

theorem edge_sent (h : edge s = .next t) : t.sent = s.sent := by
  rcases edge_next h with ⟨-, rfl⟩ | ⟨-, -, -, rfl⟩ | ⟨-, -, -, ⟨d, rfl⟩ | rfl⟩ | ⟨-, -, -, -, hw⟩
  · rfl
  · rfl
  · rfl
  · rfl
  · exact syncEdge_sent hw

theorem runLatched_sent (h : runLatched w s = .next t) : t.sent = s.sent := by
  cases atomicCase_of_runLatched h with
  | pure => rfl
  | short => rfl
  | mismatch => rfl
  | frame => exact judgeFrame_sent _

/-- Only `Write` sends (R45, R147). -/
theorem step_sent (h : step s = .next t) :
    t.sent = s.sent ∨ ∃ b rest, s.inputs = .write b :: rest ∧ t.sent = s.sent ++ [b] := by
  cases stepCase_of_step h with
  | arrive => exact .inl (arrive_sent _ _)
  | write hi => exact .inr ⟨_, _, hi, rfl⟩
  | miscount => exact .inl rfl
  | reset => exact .inl rfl
  | accept => exact .inl (accept_sent _ _)
  | atomic _ _ hw => exact .inl (by simpa using runLatched_sent hw)
  | clockEdge _ hw => exact .inl (by simpa using edge_sent hw)

/-- Settles O37: `step_sent`, and the steps of the three inputs by what `arrive`, `write` and `setClaim` write. -/
theorem outsideWritesNoRegister : Obligations.OutsideWritesNoRegister := by
  refine ⟨fun s t => step_sent, fun s rest => ⟨fun b hi => ?_, fun b hi => ?_, fun c hi => ?_⟩⟩
  · exact ⟨_, step_of_arrive hi, by simp⟩
  · exact step_of_write hi
  · exact step_of_miscount hi

/-! ## Where a step can stop (R48, R155) -/

theorem keepsContract_of_claim {n : Nat} (hc : s.claim = some n) : keepsContract s = true ↔ n = s.stream.length := by
  simp [keepsContract, avail, hc]

/-- Settles O26: with no claim SYNC completes; under a claim it completes only where the claim is right and nothing is popped. -/
theorem syncFaultsExactlyOnBrokenContract : Obligations.SyncFaultsExactlyOnBrokenContract := by
  intro s
  constructor
  · intro hf
    have hc : s.claim ≠ none := fun hc => by
      obtain ⟨t, ht⟩ := execSync_completes hc
      cases ht.symm.trans hf
    obtain ⟨n, hc⟩ := Option.ne_none_iff_exists'.mp hc
    refine ⟨n, hc, ?_⟩
    by_contra! hok
    cases (execSync_of_short ((keepsContract_of_claim hc).mpr hok.1) hok.2).symm.trans hf
  · rintro ⟨n, hc, hn | hl⟩
    · exact execSync_of_broken (by simpa using mt (keepsContract_of_claim hc).mp hn)
    · exact execSync_of_claim hc hl

/-- The outcome is a next state or the one fault; nothing is refused. -/
def GoesOnOrFaults (o : Host.Outcome State Fault Refusal) : Prop :=
  (∃ t, o = .next t) ∨ o = .fault .transportContract

theorem popEdge_goesOnOrFaults (put : Byte → Frame → Frame) (p : Phase) (s : State) :
    GoesOnOrFaults (popEdge put p s) := by
  unfold popEdge
  cases popInto put s with
  | none => exact .inr rfl
  | some t => exact .inl ⟨_, rfl⟩

theorem lastPopEdge_goesOnOrFaults (s : State) : GoesOnOrFaults (lastPopEdge s) := by
  unfold lastPopEdge
  cases popInto Frame.putChecksum s with
  | none => exact .inr rfl
  | some t => exact .inl ⟨_, rfl⟩

theorem testEdge_goesOnOrFaults (s : State) : GoesOnOrFaults (testEdge s) := by
  unfold testEdge
  cases peek s with
  | none => exact .inr rfl
  | some c =>
    by_cases h0 : c = Config.header
    · cases popInto Frame.putHeader s with
      | none => exact .inr (by simp [h0])
      | some t => exact .inl (by simp [h0])
    · cases popSampled s with
      | none => exact .inr (by simp [h0])
      | some t => exact .inl (by simp [h0])

theorem syncEdge_goesOnOrFaults (s : State) : GoesOnOrFaults (syncEdge s) := by
  unfold syncEdge
  cases s.phase with
  | start =>
    by_cases hl : avail s < 4
    · exact .inl ⟨_, seekEdge_of_short hl⟩
    · simp only [seekEdge_of_long (Nat.not_lt.mp hl)]
      exact testEdge_goesOnOrFaults _
  | header => exact testEdge_goesOnOrFaults s
  | high => exact popEdge_goesOnOrFaults _ _ s
  | low => exact popEdge_goesOnOrFaults _ _ s
  | checksum => exact lastPopEdge_goesOnOrFaults s
  | few => exact .inl ⟨_, rfl⟩
  | mismatch => exact .inl ⟨_, rfl⟩
  | full => exact .inl ⟨_, rfl⟩

theorem edge_goesOnOrFaults (s : State) : GoesOnOrFaults (edge s) := by
  cases hb : s.busy with
  | false => exact .inl ⟨_, edge_of_idle hb⟩
  | true =>
    cases hk : breaksSync s.cmd s with
    | true => exact .inr (edge_of_broken hb hk)
    | false =>
      cases hw : waits s with
      | true => exact .inl ⟨_, edge_of_wait hb hk hw⟩
      | false =>
        rw [edge_of_work hb hk hw]
        by_cases hd : decodeCommand s.cmd = .ok .sync
        · exact workEdge_of_sync hd ▸ syncEdge_goesOnOrFaults s
        · exact workEdge_eq_runLatched hd ▸ .inl (runLatched_completes (.inl hd))

/-- From a consistent state a clock edge goes on unless a SYNC runs under a count of the transport's own. -/
theorem edge_completes (h : Sequenced s)
    (hn : s.busy = true → decodeCommand s.cmd = .ok .sync → s.claim = none) : ∃ t, edge s = .next t := by
  cases hb : s.busy with
  | false => exact ⟨_, edge_of_idle hb⟩
  | true =>
    have hrun : Running s := ⟨h, hb, fun hd => .inl (hn hb hd)⟩
    rcases edge_of_running hrun with he | ⟨t, he, -⟩
    · by_cases hd : decodeCommand s.cmd = .ok .sync
      · obtain ⟨e, he', -⟩ := ending_completes (hn hb hd)
        exact ⟨e, he.trans he'⟩
      · obtain ⟨-, hph, -⟩ := h.other hb hd
        obtain ⟨e, he'⟩ := runLatched_completes (s := s) (.inl hd)
        exact ⟨e, he.trans (by simp only [ending, hph, he'])⟩
    · exact ⟨t, he⟩

/-- Settles O43: by the input that causes the step; a clock edge by `edge_completes`, an accepted word by its contract. -/
theorem stepStopsOnlyOnBrokenContract : Obligations.StepStopsOnlyOnBrokenContract := by
  intro s h
  rcases step_kinds s with ⟨b, rest, -, e⟩ | ⟨b, rest, -, e⟩ | ⟨c, rest, -, e⟩ | ⟨rest, -, e⟩ |
    ⟨w, rest, hb, hi, e⟩ | ⟨w, rest, hb, hi, e⟩ | ⟨-, l, e, -⟩
  · exact .inl ⟨_, e⟩
  · exact .inl ⟨_, e⟩
  · exact .inl ⟨_, e⟩
  · exact .inl ⟨_, e⟩
  · rcases acceptEdge_cases w (setInputs rest s) with ⟨hk, e'⟩ | ⟨-, e'⟩
    · have hc : s.claim ≠ none := fun hc => by cases hk.symm.trans (breaksSync_of_honest w (s := setInputs rest s) hc)
      have hw := eq_zero_of_decodeCommand_sync (breaksSync_iff.mp hk).1
      exact .inr ⟨e.trans e', hc, .inr ⟨hb, rest, .inr (hw ▸ hi)⟩⟩
    · exact .inl ⟨_, e.trans e'⟩
  · by_cases hd : decodeCommand w = .ok .sync
    · rw [runLatched_of_sync hd] at e
      rcases execSync_cases (latch w (setInputs rest s)) with ⟨t, e'⟩ | ⟨e', hc⟩
      · exact .inl ⟨t, e.trans e'⟩
      · exact .inr ⟨e.trans e', hc, .inr ⟨hb, rest, .inl (eq_zero_of_decodeCommand_sync hd ▸ hi)⟩⟩
    · obtain ⟨t, e'⟩ := runLatched_completes (s := latch w (setInputs rest s)) (.inl hd)
      exact .inl ⟨t, e.trans e'⟩
  · rcases edge_goesOnOrFaults (setInputs l s) with ⟨t, e'⟩ | e'
    · exact .inl ⟨t, e.trans e'⟩
    · by_cases hn : s.busy = true → decodeCommand s.cmd = .ok .sync → s.claim = none
      · obtain ⟨t, ht⟩ := edge_completes (h.setInputs l) hn
        exact .inl ⟨t, e.trans ht⟩
      · push Not at hn
        obtain ⟨hb, hd, hc⟩ := hn
        exact .inr ⟨e.trans e', hc, .inl ⟨hb, hd⟩⟩

/-! ## An arrival before an edge (R53, R105)

A clock edge of a SYNC that has sampled its count reads the front byte at most. So it does the same whatever bytes stand behind
those sampled, and removes the same of these. -/

/-- `s` with the bytes `x` in the stream, and `m` bytes lost at a full one so far. -/
def withStream (x : List Byte) (m : Nat) (s : State) : State := { s with stream := x, lost := m }

/-- An arrival writes the stream and the number of bytes lost, and nothing else (R46). -/
theorem arrive_eq_withStream (b : Byte) (s : State) :
    arrive b s = withStream (arrive b s).stream (arrive b s).lost s := by
  unfold arrive
  split_ifs
  · rfl
  · rfl

theorem judgeFrame_withStream (x : List Byte) (m : Nat) (s : State) :
    judgeFrame (withStream x m s) = withStream x m (judgeFrame s) := by
  rcases judgeFrame_cases s with ⟨hv, e⟩ | ⟨hv, e⟩ <;> rw [e]
  · exact if_pos hv
  · exact if_neg (ne_true_of_eq_false hv)

theorem conclude_withStream (x : List Byte) (m : Nat) (s : State) :
    conclude (withStream x m s) = withStream x m (conclude s) := by
  have hp : (withStream x m s).phase = s.phase := rfl
  unfold conclude
  rw [hp]
  cases s.phase with
  | full => exact judgeFrame_withStream x m s
  | _ => rfl

theorem finish_withStream (x : List Byte) (m : Nat) (s : State) :
    finish (withStream x m s) = withStream x m (finish s) := by
  have hw : waits (withStream x m s) = waits s := rfl
  unfold finish
  rw [hw]
  split_ifs
  · rfl
  · exact conclude_withStream x m s

/-- `s` with another number of sampled bytes. -/
def setSampled (n : Nat) (s : State) : State := { s with sampled := n }

/-- The last edge of a SYNC depends on the sampled count in that count alone. -/
theorem finish_setSampled (n : Nat) (s : State) : ∃ n', finish (setSampled n s) = setSampled n' (finish s) := by
  have hw : waits (setSampled n s) = waits s := rfl
  have hp : (setSampled n s).phase = s.phase := rfl
  unfold finish
  rw [hw]
  split_ifs
  · exact ⟨n, rfl⟩
  · unfold conclude
    rw [hp]
    cases s.phase with
    | few => exact ⟨0, rfl⟩
    | mismatch => exact ⟨0, rfl⟩
    | full => exact ⟨(judgeFrame s).sampled, judgeFrame_sampled n⟩
    | _ => exact ⟨n, rfl⟩

/-- The edge of `s` reads no byte, or takes one that is sampled; whatever else the stream holds, it does the same. -/
inductive FrontEdge (s : State) : Prop
  | keeps (t : State) (h : ∀ x m, edge (withStream x m s) = .next (withStream x m t))
  | pops (f : Byte → State) (hn : 1 ≤ s.sampled)
      (h : ∀ c l m, edge (withStream (c :: l) m s) = .next (withStream l m (f c)))

/-- The state after the header test, by the byte tested and before the stream is set (R91, R94, R95). -/
def tested (s : State) (c : Byte) : State :=
  if c ≠ Config.header then finish { s with sampled := s.sampled - 1, st := .rejected, phase := .mismatch }
  else { s with
    sampled := s.sampled - 1, frame := Frame.putHeader c s.frame, st := .haveEnoughBytes, rspValid := false, phase := .high }

theorem testEdge_withStream (hc : s.claim = none) (c : Byte) (l : List Byte) (m : Nat) :
    testEdge (withStream (c :: l) m s) = .next (withStream l m (tested s c)) := by
  rw [testEdge_cons (by exact hc) rfl]
  unfold tested
  split_ifs
  · rw [← finish_withStream]
    rfl
  · rfl

theorem tested_setSampled (n : Nat) (s : State) (c : Byte) :
    ∃ n', tested (setSampled n s) c = setSampled n' (tested s c) := by
  unfold tested
  split_ifs
  · exact finish_setSampled (n - 1) { s with sampled := s.sampled - 1, st := .rejected, phase := .mismatch }
  · exact ⟨n - 1, rfl⟩

theorem popEdge_withStream {put : Byte → Frame → Frame} {p : Phase} (hc : s.claim = none) (c : Byte) (l : List Byte)
    (m : Nat) : popEdge put p (withStream (c :: l) m s) = .next (withStream l m
      { s with sampled := s.sampled - 1, frame := put c s.frame, rspValid := false, phase := p }) := by
  rw [popEdge_cons (by exact hc) rfl]
  rfl

theorem lastPopEdge_withStream (hc : s.claim = none) (c : Byte) (l : List Byte) (m : Nat) :
    lastPopEdge (withStream (c :: l) m s) = .next (withStream l m (finish { s with
      sampled := s.sampled - 1, frame := Frame.putChecksum c s.frame,
      st := verdict { s with frame := Frame.putChecksum c s.frame }, phase := .full })) := by
  rw [lastPopEdge_cons (by exact hc) rfl, ← finish_withStream]
  rfl

/-- The edge of a running SYNC that works at it, under a transport that keeps its contract. -/
theorem edge_eq_syncEdge (hb : s.busy = true) (hd : decodeCommand s.cmd = .ok .sync) (hc : s.claim = none)
    (hw : waits s = false) : edge s = syncEdge s :=
  (edge_of_work hb (breaksSync_of_honest _ hc) hw).trans (workEdge_of_sync hd)

theorem frontEdge_of_sampled (h : Sampled s) : FrontEdge s := by
  have hb := h.running.busy
  have hc := h.honest
  have hp := h.running.sequenced.sync hb h.sync
  cases hw : waits s with
  | true => exact .keeps (waitEdge s) fun x m => edge_of_wait hb (breaksSync_of_honest _ hc) hw
  | false =>
    have he (x : List Byte) (m : Nat) : edge (withStream x m s) = syncEdge (withStream x m s) :=
      edge_eq_syncEdge hb h.sync hc hw
    have hph' (x : List Byte) (m : Nat) : (withStream x m s).phase = s.phase := rfl
    simp only [syncEdge, hph'] at he
    cases hph : s.phase <;> simp only [hph] at he <;> simp only [SyncProgress, hph] at hp
    case start => exact absurd hph h.phase
    case header => exact .pops _ (by omega) fun c l m => (he _ m).trans (testEdge_withStream hc c l m)
    case high => exact .pops _ (by omega) fun c l m => (he _ m).trans (popEdge_withStream hc c l m)
    case low => exact .pops _ (by omega) fun c l m => (he _ m).trans (popEdge_withStream hc c l m)
    case checksum => exact .pops _ (by omega) fun c l m => (he _ m).trans (lastPopEdge_withStream hc c l m)
    all_goals exact .keeps _ fun x m => (he x m).trans (congrArg Host.Outcome.next (conclude_withStream x m s))

/-- Where the sampled bytes stand at the front, a front edge goes on, removes `k` of them, and does the same with any other bytes
behind them. -/
theorem FrontEdge.removes (h : FrontEdge s) (hn : s.sampled ≤ s.stream.length) :
    ∃ t k, edge s = .next t ∧ k ≤ s.sampled ∧ t.stream = s.stream.drop k ∧ t.lost = s.lost ∧
      ∀ x m, x.take s.sampled = s.stream.take s.sampled → edge (withStream x m s) = .next (withStream (x.drop k) m t) := by
  cases h with
  | keeps t h => exact ⟨_, 0, h s.stream s.lost, Nat.zero_le _, rfl, rfl, fun x m _ => h x m⟩
  | pops f h1 h =>
    obtain ⟨c, l, hs⟩ := List.exists_cons_of_length_pos (h1.trans hn)
    have he : edge s = .next (withStream l s.lost (f c)) := by
      rw [← h, ← hs]
      rfl
    refine ⟨_, 1, he, h1, by rw [hs]; rfl, rfl, fun x m hx => ?_⟩
    obtain ⟨k, hk⟩ := Nat.exists_eq_add_of_le' h1
    rw [hk, hs] at hx
    match x with
    | [] => simp at hx
    | d :: x =>
      simp only [List.take_succ_cons, List.cons.injEq] at hx
      rw [hx.1, h c x m]
      rfl

/-- The edge at which a SYNC samples a count of four or more, whatever the bytes behind the first: it is the header test. -/
theorem edge_of_start (hb : s.busy = true) (hd : decodeCommand s.cmd = .ok .sync) (hc : s.claim = none)
    (hph : s.phase = .start) (hw : waits s = false) {c : Byte} {l : List Byte} (hl : 4 ≤ (c :: l).length) :
    ∃ n, edge (withStream (c :: l) s.lost s) = .next (withStream l s.lost
      (setSampled n (tested { s with st := .haveEnoughBytes, phase := .header } c))) := by
  have ha : avail (withStream (c :: l) s.lost s) = (c :: l).length := avail_eq (keepsContract_of_honest hc)
  have hph' : (withStream (c :: l) s.lost s).phase = .start := hph
  obtain ⟨n, hn⟩ := tested_setSampled (c :: l).length { s with st := .haveEnoughBytes, phase := .header } c
  refine ⟨n, ?_⟩
  rw [edge_eq_syncEdge (by exact hb) (by exact hd) (by exact hc) (by exact hw), ← hn, ← testEdge_withStream (by exact hc)]
  simp only [syncEdge, hph']
  rw [seekEdge_of_long (ha ▸ hl), ha]
  rfl

/-- An edge of a SYNC that has not sampled four bytes or more yet does the same with one byte more at the back. -/
theorem edge_append_of_start (hb : s.busy = true) (hd : decodeCommand s.cmd = .ok .sync) (hc : s.claim = none)
    (hph : s.phase = .start) (hl : 4 ≤ s.stream.length) (b : Byte) :
    ∃ t n, edge s = .next t ∧
      edge { s with stream := s.stream ++ [b] } = .next { t with stream := t.stream ++ [b], sampled := n } := by
  cases hw : waits s with
  | true =>
    exact ⟨_, s.sampled, edge_of_wait hb (breaksSync_of_honest _ hc) hw,
      edge_of_wait hb (breaksSync_of_honest _ hc) hw⟩
  | false =>
    obtain ⟨c, l, hs⟩ := List.exists_cons_of_length_pos (show 0 < s.stream.length by omega)
    rw [hs] at hl
    obtain ⟨n, e⟩ := edge_of_start hb hd hc hph hw hl
    obtain ⟨n', e'⟩ := edge_of_start (c := c) (l := l ++ [b]) hb hd hc hph hw (hl.trans (by simp))
    have hself : withStream (c :: l) s.lost s = s := by
      rw [← hs]
      rfl
    rw [hself] at e
    refine ⟨_, n', e, ?_⟩
    rw [show s.stream ++ [b] = c :: (l ++ [b]) by rw [hs]; rfl]
    exact e'

/-- Settles O49: after the sample every edge reads the front only; before it, the edge that samples is the header test. -/
theorem arrivalCommutesWithEdge : Obligations.ArrivalCommutesWithEdge := by
  intro s b hseq hb hd hc
  have hn := hseq.sampled
  have hfront (hph : s.phase ≠ .start) :=
    (frontEdge_of_sampled ⟨⟨hseq, hb, fun _ => .inl hc⟩, hd, hc, hph⟩).removes hn
  refine ⟨fun _ h4 => ?_, fun hph => ?_⟩
  · by_cases hph : s.phase = .start
    · obtain ⟨t, n, e, e'⟩ := edge_append_of_start hb hd hc hph (h4 hph) b
      exact ⟨t, n, e, fun h => absurd hph h, e'⟩
    · obtain ⟨t, k, e, hk, hts, htl, hall⟩ := hfront hph
      have e' := hall (s.stream ++ [b]) s.lost (List.take_append_of_le_length hn)
      rw [List.drop_append_of_le_length (hk.trans hn), ← hts, ← htl] at e'
      exact ⟨t, t.sampled, e, fun _ => rfl, htl ▸ e'⟩
  · obtain ⟨t, k, e, hk, hts, -, hall⟩ := hfront hph
    have hkept := arrive_keeps_sampled b hn
    refine ⟨t, k, e, hk, hts, hkept, ?_⟩
    calc edge (arrive b s)
        = edge (withStream (arrive b s).stream (arrive b s).lost s) := congrArg _ (arrive_eq_withStream b s)
      _ = _ := hall _ _ hkept

/-! ## Bytes that arrive during a frame read, by the reference schedule (R80, R105) -/

/-- Arrivals into a stream with room for all of them stand behind what it holds, in their order (R46). -/
theorem run_arrivals (a : List Byte) {l : List Input} (hi : s.inputs = a.map .arrive ++ l)
    (hr : s.stream.length + a.length ≤ Config.rxCapacity) :
    run a.length s = .next { s with stream := s.stream ++ a, inputs := l } := by
  induction a generalizing s with
  | nil =>
    obtain rfl : s.inputs = l := hi
    simp
  | cons b a ih =>
    rw [List.length_cons] at hr ⊢
    have hroom : (setInputs (a.map .arrive ++ l) s).stream.length < Config.rxCapacity := by
      rw [setInputs_stream]; omega
    have hstep := step_of_arrive (rest := a.map .arrive ++ l) hi
    rw [arrive_room hroom] at hstep
    rw [run_succ_of_next _ hstep, ih rfl (by simp; omega)]
    simp

/-- SYNC runs under a transport that keeps its contract, with no edge left to let pass: it stands at the phase `p` with `f` in `F`,
`k` draws of free values made, the bytes `x` in the stream and the inputs `l` to come. -/
structure OnSchedule (p : Phase) (f : Frame) (k : Nat) (x : List Byte) (l : List Input) (s : State) : Prop where
  busy : s.busy = true
  cmd : s.cmd = 0#36
  claim : s.claim = none
  slack : s.slack = 0
  phase : s.phase = p
  frame : s.frame = f
  free : s.free = k
  stream : s.stream = x
  inputs : s.inputs = l

variable {p q : Phase} {f g : Frame} {k : Nat} {b : Byte} {x : List Byte} {l : List Input}

theorem OnSchedule.setInputs (h : OnSchedule p f k x l s) (m : List Input) : OnSchedule p f k x m (setInputs m s) :=
  ⟨h.busy, h.cmd, h.claim, h.slack, h.phase, h.frame, h.free, h.stream, rfl⟩

theorem OnSchedule.edge (h : OnSchedule p f k x l s) : edge s = syncEdge s :=
  edge_eq_syncEdge h.busy (by rw [h.cmd]; decide) h.claim (waits_of_slack_zero h.slack)

/-- The header byte is popped at the edge that samples the count. -/
theorem OnSchedule.edge_header (h : OnSchedule .start f k (0xFF#8 :: x) l s) (hl : 3 ≤ x.length) :
    ∃ t, Machine.edge s = .next t ∧ OnSchedule .high (f.putHeader 0xFF#8) k x l t := by
  have ha : 4 ≤ avail s := by
    rw [avail_eq (keepsContract_of_honest h.claim), h.stream]; simpa using hl
  have hseek : syncEdge s = testEdge { s with sampled := avail s, st := .haveEnoughBytes, phase := .header } := by
    simp only [syncEdge, h.phase]
    exact seekEdge_of_long ha
  rw [testEdge_cons (by exact h.claim) (by exact h.stream), if_neg (by decide)] at hseek
  exact ⟨_, h.edge.trans hseek, h.busy, h.cmd, h.claim, h.slack, rfl, congrArg (Frame.putHeader 0xFF#8) h.frame, h.free,
    rfl, h.inputs⟩

/-- A byte after the header is popped at one edge. -/
theorem OnSchedule.edge_pop {put : Byte → Frame → Frame} (h : OnSchedule p f k (b :: x) l s)
    (he : syncEdge s = popEdge put q s) : ∃ t, Machine.edge s = .next t ∧ OnSchedule q (put b f) k x l t :=
  ⟨_, h.edge.trans (he.trans (popEdge_cons h.claim h.stream)), h.busy, h.cmd, h.claim, h.slack, rfl,
    congrArg _ h.frame, h.free, rfl, h.inputs⟩

theorem OnSchedule.edge_high (h : OnSchedule .high f k (b :: x) l s) :
    ∃ t, Machine.edge s = .next t ∧ OnSchedule .low (f.putHigh b) k x l t :=
  h.edge_pop (by simp only [syncEdge, h.phase])

theorem OnSchedule.edge_low (h : OnSchedule .low f k (b :: x) l s) :
    ∃ t, Machine.edge s = .next t ∧ OnSchedule .checksum (f.putLow b) k x l t :=
  h.edge_pop (by simp only [syncEdge, h.phase])

theorem finish_of_full (hp : s.phase = .full) (hw : waits s = false) : finish s = judgeFrame s := by
  simp [finish, hw, conclude, hp]

/-- The fourth pop and the verdict on the frame are at one edge. -/
theorem OnSchedule.edge_checksum (h : OnSchedule .checksum f k (b :: x) l s) :
    ∃ u, Machine.edge s = .next (judgeFrame u) ∧ u.frame = f.putChecksum b ∧ u.free = k ∧ u.stream = x := by
  have hpop : syncEdge s = lastPopEdge s := by simp only [syncEdge, h.phase]
  rw [lastPopEdge_cons h.claim h.stream, finish_of_full (by rfl) (waits_of_slack_zero (by exact h.slack))] at hpop
  exact ⟨_, h.edge.trans hpop, congrArg (Frame.putChecksum b) h.frame, h.free, rfl⟩

/-- One clock edge and the arrivals after it: they stand behind what the edge leaves. -/
theorem OnSchedule.run_clock_arrivals {a y : List Byte} (h : OnSchedule p f k x (.clock :: (a.map .arrive ++ l)) s)
    (he : ∀ m s, OnSchedule p f k x m s → ∃ t, Machine.edge s = .next t ∧ OnSchedule q g k y m t)
    (hr : y.length + a.length ≤ Config.rxCapacity) :
    ∃ t, run (a.length + 1) s = .next t ∧ OnSchedule q g k (y ++ a) l t := by
  obtain ⟨t, ht, h'⟩ := he _ _ (h.setInputs (a.map .arrive ++ l))
  have hrun := run_succ_of_next a.length ((step_of_clock h.inputs).trans ht)
  rw [run_arrivals a h'.inputs (by rw [h'.stream]; exact hr)] at hrun
  exact ⟨_, hrun, h'.busy, h'.cmd, h'.claim, h'.slack, h'.phase, h'.frame, h'.free, congrArg (· ++ a) h'.stream, rfl⟩

/-- Settles O50: three pops with the arrivals after each, then the edge of the fourth pop and the verdict. -/
theorem arrivalsDuringReadStayBehind : Obligations.ArrivalsDuringReadStayBehind := by
  intro s high low checksum rest a1 a2 a3 hb hk hph hw hc hs hr1 hr2 hr3 hi
  have h0 : OnSchedule .start s.frame s.free (0xFF#8 :: high :: low :: checksum :: rest)
      (.clock :: (a1.map .arrive ++ .clock :: (a2.map .arrive ++ .clock :: (a3.map .arrive ++ [.clock])))) s :=
    ⟨hb, hw, hc, hk, hph, rfl, rfl, hs, by simpa using hi⟩
  obtain ⟨s1, e1, h1⟩ := h0.run_clock_arrivals (fun _ _ h => h.edge_header (by simp)) (by simpa using hr1)
  obtain ⟨s2, e2, h2⟩ := h1.run_clock_arrivals (fun _ _ h => h.edge_high) (by simp; omega)
  obtain ⟨s3, e3, h3⟩ := h2.run_clock_arrivals (fun _ _ h => h.edge_low) (by simp; omega)
  obtain ⟨u, e4, huf, hun, hus⟩ := (h3.setInputs []).edge_checksum
  have hrun : run (4 + a1.length + a2.length + a3.length) s = .next (judgeFrame u) := by
    rw [show 4 + a1.length + a2.length + a3.length = a1.length + 1 + (a2.length + 1 + (a3.length + 1 + 1)) by omega,
      run_add_of_next _ _ e1, run_add_of_next _ _ e2, run_add_of_next _ _ e3, run_one, step_of_clock h3.inputs, e4]
  obtain ⟨_, _, ⟨⟩, ⟨⟩, hrsp, hframe⟩ := sameAnswer_judgeFrame
    (s := { s with stream := rest, frame := ⟨0xFF#8, high, low, checksum⟩ }) huf hun
  exact ⟨_, _, hrun, execSync_of_frame hc hs rfl, (judgeFrame_stream u).trans hus, hrsp, hframe, judgeFrame_busy u⟩

end Sys2Proof.Machine
end

/-! SUPPORT. Proofs of the encoding family (30_encoding.md). First the words as numbers (R60, R66, R68 to R72): what each
field of a word is, and what the word of a command, a frame and a response is; then the response, the handshake and the receive
port over the steps. -/

section
namespace Sys2Proof

open Machine

variable {w : CmdWord} {i : Instr}

/-! ## Words made of fields, as numbers (R60, R66, R70, R72)

A field `v` at bit `k` adds `v * 2 ^ k` to the number of a word whose bits below the field's end are zero. -/

section
variable {n m k a : Nat} {x : BitVec n}

theorem toNat_mul_two_pow_lt (v : BitVec m) (k : Nat) : v.toNat * 2 ^ k < 2 ^ (m + k) := by
  rw [pow_add]
  exact Nat.mul_lt_mul_of_pos_right v.isLt (Nat.two_pow_pos k)

theorem field_toNat (v : BitVec m) (h : m + k ≤ n) : (zext n v <<< k).toNat = v.toNat * 2 ^ k := by
  have hk : v.toNat * 2 ^ k < 2 ^ n := (toNat_mul_two_pow_lt v k).trans_le (Nat.pow_le_pow_right two_pos h)
  have hv : v.toNat < 2 ^ n := (Nat.le_mul_of_pos_right _ (Nat.two_pow_pos k)).trans_lt hk
  rw [BitVec.toNat_shiftLeft, BitVec.toNat_setWidth, Nat.mod_eq_of_lt hv, Nat.shiftLeft_eq, Nat.mod_eq_of_lt hk]

theorem or_field_toNat (hx : x.toNat = a) (v : BitVec m) (ha : 2 ^ (m + k) ∣ a) (h : m + k ≤ n) :
    (x ||| zext n v <<< k).toNat = a + v.toNat * 2 ^ k := by
  obtain ⟨c, hc⟩ := ha
  rw [BitVec.toNat_or, field_toNat v h, hx, hc, Nat.two_pow_add_eq_or_of_lt (toNat_mul_two_pow_lt v k)]

theorem or_lowField_toNat (hx : x.toNat = a) (v : BitVec m) (ha : 2 ^ m ∣ a) (h : m ≤ n) :
    (x ||| zext n v).toNat = a + v.toNat := by
  simpa using or_field_toNat (k := 0) hx v ha h

end

/-- The number of a command's word: `OP` above the 32 bits of `OPERAND`, and the operands at their places (R68, R70). -/
def Instr.number : Instr → Nat
  | .sync => 0
  | .check hdr hi lo ck =>
    1 * 2 ^ 32 + hdr.toNat * 2 ^ 24 + hi.toNat * 2 ^ 16 + lo.toNat * 2 ^ 8 + ck.toNat * 2 ^ 0
  | .decode hi lo => 2 * 2 ^ 32 + hi.toNat * 2 ^ 8 + lo.toNat * 2 ^ 0
  | .tocm mm => 3 * 2 ^ 32 + mm.toNat * 2 ^ 0

theorem encode_toNat (i : Instr) : (encode i).toNat = i.number := by
  have hop (v : BitVec 4) : (place 32 v).toNat = v.toNat * 2 ^ 32 := field_toNat v (by decide)
  cases i with
  | sync => rfl
  | check hdr hi lo ck =>
    have e3 := or_field_toNat (k := 24) (hop 0x1#4) hdr (by decide) (by decide)
    have e2 := or_field_toNat (k := 16) e3 hi (by omega) (by decide)
    have e1 := or_field_toNat (k := 8) e2 lo (by omega) (by decide)
    exact or_field_toNat (k := 0) e1 ck (by omega) (by decide)
  | decode hi lo =>
    have e1 := or_field_toNat (k := 8) (hop 0x2#4) hi (by decide) (by decide)
    exact or_field_toNat (k := 0) e1 lo (by omega) (by decide)
  | tocm mm => exact or_field_toNat (k := 0) (hop 0x3#4) mm (by decide) (by decide)

/-- A command is the only one with its number. -/
theorem encode_eq_iff : encode i = w ↔ w.toNat = i.number := by
  rw [← encode_toNat, eq_comm, ← BitVec.toNat_inj]

/-! ## The fields of a word, as numbers (R68) -/

theorem extractLsb'_eq_ofNat {n : Nat} (v : BitVec n) (k m : Nat) :
    v.extractLsb' k m = BitVec.ofNat m (v.toNat / 2 ^ k) := by
  apply BitVec.eq_of_toNat_eq
  rw [BitVec.extractLsb'_toNat, BitVec.toNat_ofNat, Nat.shiftRight_eq_div_pow]

theorem opNumber_lt (w : CmdWord) : opNumber w < 16 :=
  Nat.div_lt_of_lt_mul w.isLt

theorem operandNumber_lt (w : CmdWord) : operandNumber w < 2 ^ 32 := Nat.mod_lt _ (Nat.two_pow_pos 32)

theorem operandField_toNat (w : CmdWord) : (operandField w).toNat = operandNumber w := by
  rw [operandField, extractLsb'_eq_ofNat, pow_zero, Nat.div_one, BitVec.toNat_ofNat, operandNumber]

theorem ofNat_eq_iff {m a b : Nat} (ha : a < 2 ^ m) (hb : b < 2 ^ m) : BitVec.ofNat m a = BitVec.ofNat m b ↔ a = b := by
  rw [← BitVec.toNat_inj, BitVec.toNat_ofNat, BitVec.toNat_ofNat, Nat.mod_eq_of_lt ha, Nat.mod_eq_of_lt hb]

theorem opField_eq_iff {k : Nat} (hk : k < 16) : opField w = BitVec.ofNat 4 k ↔ opNumber w = k := by
  rw [opField, extractLsb'_eq_ofNat]
  exact ofNat_eq_iff (opNumber_lt w) hk

theorem operandField_eq_zero_iff : operandField w = 0#32 ↔ operandNumber w = 0 := by
  rw [← operandField_toNat, ← BitVec.toNat_inj, BitVec.toNat_ofNat, Nat.zero_mod]

theorem upperHalf_eq_zero_iff : upperHalf (operandField w) = 0#16 ↔ operandNumber w / 2 ^ 16 = 0 := by
  rw [upperHalf, extractLsb'_eq_ofNat, operandField_toNat]
  exact ofNat_eq_iff (Nat.div_lt_of_lt_mul (operandNumber_lt w)) (Nat.two_pow_pos 16)

/-- Settles O3: the fields are the digits of the word's number, and the tests of the decoder are tests of those. -/
theorem decodeFollowsPseudocode : Obligations.DecodeFollowsPseudocode := by
  intro w
  have hop := opNumber_lt w
  simp only [decodeCommand, opField_eq_iff (show 0 < 16 by decide), opField_eq_iff (show 1 < 16 by decide),
    opField_eq_iff (show 2 < 16 by decide), opField_eq_iff (show 3 < 16 by decide), operandField_eq_zero_iff,
    upperHalf_eq_zero_iff, byte3, byte2, byte1, byte0, lowerHalf, extractLsb'_eq_ofNat, operandField_toNat, pow_zero,
    Nat.div_one]
  generalize opNumber w = op at hop
  by_cases h4 : 4 ≤ op
  · simp [h4, show op ≠ 0 by omega, show op ≠ 1 by omega, show op ≠ 2 by omega, show op ≠ 3 by omega]
  · interval_cases op <;> simp

theorem ofNat_eq_of_toNat {m n : Nat} {v : BitVec m} (h : n % 2 ^ m = v.toNat) : BitVec.ofNat m n = v :=
  BitVec.eq_of_toNat_eq (by rw [BitVec.toNat_ofNat, h])

/-- The command whose number a word is, is what the decoder reads from it. -/
theorem decodeCommand_of_number (h : w.toNat = i.number) : decodeCommand w = .ok i := by
  have hop : opNumber w = w.toNat / 2 ^ 32 := rfl
  have hopd : operandNumber w = w.toNat % 2 ^ 32 := rfl
  rw [decodeFollowsPseudocode w]
  cases i with simp only [Instr.number] at h
  | sync => rw [if_pos (by omega)]
  | check hdr hi lo ck =>
    rw [if_neg (by omega), if_pos (by omega)]
    simp only [Decoded.ok.injEq, Instr.check.injEq]
    refine ⟨?_, ?_, ?_, ?_⟩ <;> exact ofNat_eq_of_toNat (by omega)
  | decode hi lo =>
    rw [if_neg (by omega), if_neg (by omega), if_pos (by omega)]
    simp only [Decoded.ok.injEq, Instr.decode.injEq]
    refine ⟨?_, ?_⟩ <;> exact ofNat_eq_of_toNat (by omega)
  | tocm mm =>
    rw [if_neg (by omega), if_neg (by omega), if_neg (by omega), if_pos (by omega)]
    simp only [Decoded.ok.injEq, Instr.tocm.injEq]
    exact ofNat_eq_of_toNat (by omega)

/-- Settles O1: the decoder reads the command off the number of its word. -/
theorem encodeThenDecode : Obligations.EncodeThenDecode :=
  fun i => decodeCommand_of_number (encode_toNat i)

/-- Settles O2: where the decoder reads a command, its fields make up the word's number again. -/
theorem decodeThenEncode : Obligations.DecodeThenEncode := by
  intro w i h
  have hw : w.toNat = opNumber w * 2 ^ 32 + operandNumber w := (Nat.div_add_mod' w.toNat (2 ^ 32)).symm
  have hopd := operandNumber_lt w
  rw [encode_eq_iff, hw]
  rw [decodeFollowsPseudocode w] at h
  split_ifs at h <;> cases h <;> simp only [Instr.number, BitVec.toNat_ofNat] <;> omega

/-! ## The rows of the opcode table (R69, R70) -/

/-- No word is covered by two rows of the table: where their masks overlap, their patterns differ. -/
theorem row_eq_of_covers {r r' : CommandRow} (hr : r ∈ commandTable) (hr' : r' ∈ commandTable) (h : r.covers w = true)
    (h' : r'.covers w = true) : r = r' := by
  have hdiffer : ∀ r ∈ commandTable, ∀ r' ∈ commandTable, r.pattern &&& r'.mask = r'.pattern &&& r.mask → r = r' := by
    decide
  refine hdiffer r hr r' hr' ?_
  rw [← beq_iff_eq.mp h, ← beq_iff_eq.mp h', BitVec.and_assoc, BitVec.and_assoc, BitVec.and_comm r.mask]

/-- A row whose mask keeps the bits from `k` up fixes the word's number from there up. -/
theorem number_of_covers {r : CommandRow} {k : Nat} (hm : r.mask = BitVec.allOnes 36 <<< k) (h : r.covers w = true) :
    w.toNat / 2 ^ k = r.pattern.toNat / 2 ^ k := by
  have hbits : w >>> k = r.pattern >>> k := by
    rw [← beq_iff_eq.mp h, hm]
    ext j hj
    rw [BitVec.getElem_ushiftRight, BitVec.getElem_ushiftRight, BitVec.getLsbD_and]
    cases hw : w.getLsbD (k + j) with
    | false => rfl
    | true =>
      have := BitVec.lt_of_getLsbD hw
      simp [-BitVec.reduceAllOnes, this]
  simpa [Nat.shiftRight_eq_div_pow] using congrArg BitVec.toNat hbits

/-- The decoder reads a command from the words that are legal in numbers, and from no others (R71). -/
theorem legalNumber_iff_decodes : LegalNumber w ↔ ∃ i, decodeCommand w = .ok i := by
  unfold LegalNumber
  rw [decodeFollowsPseudocode w]
  split_ifs <;> simp <;> omega

theorem legalNumber_of_covers {r : CommandRow} (hr : r ∈ commandTable) (h : r.covers w = true) : LegalNumber w := by
  unfold LegalNumber opNumber operandNumber
  simp only [commandTable, List.mem_cons, List.not_mem_nil, or_false] at hr
  rcases hr with rfl | rfl | rfl | rfl
  · have hn : w.toNat / 2 ^ 0 = 0 := number_of_covers (by decide) h
    omega
  · have hn : w.toNat / 2 ^ 32 = 1 := number_of_covers (by decide) h
    omega
  · have hn : w.toNat / 2 ^ 16 = 2 * 2 ^ 16 := number_of_covers (by decide) h
    omega
  · have hn : w.toNat / 2 ^ 16 = 3 * 2 ^ 16 := number_of_covers (by decide) h
    omega

theorem row_covers_of_decode (h : decodeCommand w = .ok i) : i.row ∈ commandTable ∧ i.row.covers w = true := by
  rw [← decodeThenEncode w i h]
  cases i with
  | sync => exact Laws.RowCovers.sync
  | check hdr hi lo ck => exact Laws.RowCovers.check hdr hi lo ck
  | decode hi lo => exact Laws.RowCovers.decode hi lo
  | tocm mm => exact Laws.RowCovers.tocm mm

/-- A word is legal when the decoder reads a command from it (R71). -/
theorem legalWord_iff : legalWord w = true ↔ ∃ i, decodeCommand w = .ok i := by
  rw [legalWord, List.any_eq_true]
  constructor
  · rintro ⟨r, hr, hc⟩
    exact legalNumber_iff_decodes.mp (legalNumber_of_covers hr hc)
  · rintro ⟨i, hi⟩
    exact ⟨i.row, row_covers_of_decode hi⟩

/-- Settles O4: the command's own row covers its word, and no word has two rows. -/
theorem commandWordHasOneRow : Obligations.CommandWordHasOneRow := by
  intro w
  constructor
  · intro i hi r hr
    obtain ⟨hrow, hc⟩ := row_covers_of_decode hi
    exact ⟨fun h => row_eq_of_covers hr hrow h hc, fun h => h ▸ hc⟩
  · rw [← Bool.not_eq_true, legalWord_iff]
    cases decodeCommand w <;> simp

/-- Settles O5: by evaluation of the decoder. -/
theorem tableWordsDecode : Obligations.TableWordsDecode := by
  unfold Obligations.TableWordsDecode
  decide

/-! ## The assembler (R76) -/

theorem encode_eq_ofNat {n : Nat} (h : i.number = n) : encode i = BitVec.ofNat 36 n := by
  rw [← h, ← encode_toNat, BitVec.ofNat_toNat, BitVec.setWidth_eq]

/-- A line out of range is an assembly error. -/
theorem assemble_of_not_wellFormed {line : AsmLine} (h : line.wellFormed = false) : Assembler.assemble line = none :=
  if_neg (by rw [h]; decide)

/-- A line in range that stands for the command `i` has the number of `i` as its word. -/
theorem assemble_of_command {line : AsmLine} {n : Nat} (hl : line.wellFormed = true)
    (ha : Assembler.assemble line = if line.wellFormed then some (encode i) else none) (hn : i.number = n) :
    Assembler.assemble line = some (BitVec.ofNat 36 n) := by
  rw [ha, if_pos hl, encode_eq_ofNat hn]

/-- Settles O6: a line in range is a command, whose word has its number. -/
theorem assemblerWords : Obligations.AssemblerWords := by
  refine ⟨⟨rfl, rfl⟩, fun hdr hi lo ck h0 h1 h2 h3 => ?_, fun hi lo h0 h1 => ?_, fun mm h => ?_,
    fun v h => if_pos (decide_eq_true h), fun w h => ?_, fun hdr hi lo ck h => ?_, fun hi lo h => ?_, fun mm h => ?_,
    fun v h => ?_, fun w h => ?_, fun line => assemble_of_not_wellFormed⟩
  · refine assemble_of_command (by simp [AsmLine.wellFormed, *]) rfl ?_
    simp only [Instr.number, BitVec.toNat_ofNat]
    omega
  · refine assemble_of_command (by simp [AsmLine.wellFormed, *]) rfl ?_
    simp only [Instr.number, BitVec.toNat_ofNat]
    omega
  · refine assemble_of_command (decide_eq_true h) rfl ?_
    simp only [Instr.number, BitVec.toNat_ofNat]
    omega
  · refine assemble_of_command (decide_eq_true h) rfl ?_
    simp only [Instr.number, byte3, byte2, byte1, byte0, extractLsb'_eq_ofNat, BitVec.toNat_ofNat]
    omega
  all_goals
    refine assemble_of_not_wellFormed ?_
    simp only [AsmLine.wellFormed, ← Bool.not_eq_true, Bool.and_eq_true, decide_eq_true_eq]
    omega

/-! ## The frame word, the distance and the packed response (R60, R66, R72) -/

namespace Machine

theorem toWord_toNat (f : Frame) : f.toWord.toNat =
    f.header.toNat * 2 ^ 24 + f.high.toNat * 2 ^ 16 + f.low.toNat * 2 ^ 8 + f.checksum.toNat := by
  have e3 := field_toNat (n := 32) (k := 24) f.header (by decide)
  have e2 := or_field_toNat (k := 16) e3 f.high (by omega) (by decide)
  have e1 := or_field_toNat (k := 8) e2 f.low (by omega) (by decide)
  exact or_lowField_toNat e1 f.checksum (by omega) (by decide)

/-- Settles O7: the four bytes are the base-256 digits of the frame word's number. -/
theorem frameWordIsWireOrder : Obligations.FrameWordIsWireOrder := by
  intro f
  have hn := toWord_toNat f
  refine ⟨hn, ?_, decodeCommand_of_number ?_⟩
  · obtain ⟨header, high, low, checksum⟩ := f
    simp only [Frame.ofWord, byte3, byte2, byte1, byte0, extractLsb'_eq_ofNat, Frame.mk.injEq]
    simp only at hn
    refine ⟨?_, ?_, ?_, ?_⟩ <;> exact ofNat_eq_of_toNat (by omega)
  · simp only [Instr.number, BitVec.toNat_ofNat]
    omega

/-- Settles O13: the high byte is a field at bit 8, above the low byte. -/
theorem distanceIsBigEndian : Obligations.DistanceIsBigEndian := by
  intro high low
  have hn : (distance high low).toNat = high.toNat * 2 ^ 8 + low.toNat :=
    or_lowField_toNat (field_toNat (n := 16) (k := 8) high (by decide)) low (by omega) (by decide)
  have hor : high.toNat <<< 8 ||| low.toNat = high.toNat * 2 ^ 8 + low.toNat := by
    rw [← Nat.shiftLeft_add_eq_or_of_lt low.isLt, Nat.shiftLeft_eq]
  exact ⟨hn.trans hor.symm, by omega⟩

theorem pack_toNat (r : Response) : r.pack.toNat =
    r.status.code.toNat * 2 ^ 68 + (bit r.valid).toNat * 2 ^ 67 + r.consumed.toNat * 2 ^ 64 + r.data.toNat := by
  have e3 := field_toNat (n := 71) (k := 68) r.status.code (by decide)
  have e2 := or_field_toNat (k := 67) e3 (bit r.valid) (by omega) (by decide)
  have e1 := or_field_toNat (k := 64) e2 r.consumed (by omega) (by decide)
  exact or_lowField_toNat e1 r.data (by omega) (by decide)

/-- Settles O8: the fields are the digits of the packed word's number, and the status bits its code by cases. -/
theorem packedResponseFields : Obligations.PackedResponseFields := by
  intro r
  have hn := pack_toNat r
  simp only [extractLsb'_eq_ofNat]
  refine ⟨?_, ?_, ofNat_eq_of_toNat (by omega), ofNat_eq_of_toNat (by omega)⟩
  · have hcode : BitVec.ofNat 3 (r.pack.toNat / 2 ^ 68) = r.status.code := ofNat_eq_of_toNat (by omega)
    rw [hcode]
    cases r.status <;> rfl
  · have hbit : r.pack.toNat / 2 ^ 67 % 2 = (bit r.valid).toNat := by omega
    rw [BitVec.getLsbD, Nat.testBit_eq_decide_div_mod_eq, hbit]
    cases r.valid <;> rfl

end Machine
end Sys2Proof
end

section
namespace Sys2Proof.Machine

variable {s t u : State} {w : CmdWord}

/-! ## The response (R73 to R75) -/

/-- A frame that passes answers with a distance of 16 bits, one that does not with `ChecksumError`. -/
theorem judgeFrame_rsp_legal (s : State) : (judgeFrame s).rsp.Legal := by
  rcases judgeFrame_cases s with ⟨-, e⟩ | ⟨-, e⟩ <;> rw [e]
  · refine ⟨rfl, rfl, ?_⟩
    exact (BitVec.toNat_setWidth _ _).trans_lt ((Nat.mod_le _ _).trans_lt (distance s.frame.high s.frame.low).isLt)
  · exact ⟨rfl, rfl⟩

theorem conclude_rsp_legal (h : s.rsp.Legal) : (conclude s).rsp.Legal := by
  rcases conclude_cases s with ⟨-, e⟩ | ⟨-, e⟩ | ⟨-, e⟩ | ⟨-, -, -, e⟩ <;> rw [e]
  · exact ⟨rfl, rfl⟩
  · exact ⟨rfl, rfl⟩
  · exact judgeFrame_rsp_legal s
  · exact h

theorem finish_rsp_legal (h : s.rsp.Legal) : (finish s).rsp.Legal := by
  rcases finish_cases s with ⟨-, e⟩ | ⟨-, e⟩ <;> rw [e]
  · exact h
  · exact conclude_rsp_legal h

theorem syncEdge_rsp_legal (h : s.rsp.Legal) (ht : syncEdge s = .next t) : t.rsp.Legal := by
  rcases syncEdge_next ht with ⟨-, -, rfl⟩ | ⟨u, c, l, hu, -, -, htest⟩ | ⟨b, l, -, -, hpop⟩ | ⟨-, rfl⟩
  · exact finish_rsp_legal h
  · have hu : u.rsp.Legal := by rcases hu with ⟨-, -, rfl⟩ | ⟨-, rfl⟩ <;> exact h
    rcases htest with ⟨-, rfl⟩ | ⟨-, rfl⟩
    · exact finish_rsp_legal hu
    · exact hu
  · rcases hpop with ⟨-, rfl⟩ | ⟨-, rfl⟩ | ⟨-, rfl⟩
    · exact h
    · exact h
    · exact finish_rsp_legal h
  · exact conclude_rsp_legal h

theorem edge_rsp_legal (h : s.rsp.Legal) (ht : edge s = .next t) : t.rsp.Legal := by
  rcases edge_next ht with ⟨-, rfl⟩ | ⟨-, -, -, rfl⟩ | ⟨-, -, -, ⟨d, rfl⟩ | rfl⟩ | ⟨-, -, -, -, hw⟩
  · exact h
  · exact h
  · exact ⟨rfl, rfl⟩
  · exact ⟨rfl, rfl⟩
  · exact syncEdge_rsp_legal h hw

theorem runLatched_rsp_legal (ht : runLatched w s = .next t) : t.rsp.Legal := by
  cases atomicCase_of_runLatched ht with
  | pure _ hv => rcases hv with rfl | rfl <;> exact ⟨rfl, rfl⟩
  | short => exact ⟨rfl, rfl⟩
  | mismatch => exact ⟨rfl, rfl⟩
  | frame => exact judgeFrame_rsp_legal _

/-- Settles O40: by the input that causes the step. -/
theorem stepKeepsResponseLegal : Obligations.StepKeepsResponseLegal := by
  intro s t h ht
  cases stepCase_of_step ht with
  | arrive => exact (arrive_rsp _ _).symm ▸ h
  | write => exact h
  | miscount => exact h
  | reset => exact ⟨rfl, rfl⟩
  | accept => exact (accept_rsp _ _).symm ▸ h
  | atomic _ _ hw => exact runLatched_rsp_legal hw
  | @clockEdge l _ _ hw => exact edge_rsp_legal (s := setInputs l s) h hw

/-! ## The handshake (R78) -/

theorem cmdReady_eq (s : State) : (outputs false s).cmdReady = !s.busy := rfl

/-- Settles O45: by `busy`, and at a ready block by the transport's contract where the word is SYNC. -/
theorem acceptedExactlyWhenReady : Obligations.AcceptedExactlyWhenReady := by
  intro s w rest hi
  simp only [cmdReady_eq, Bool.not_eq_true', Bool.not_eq_false']
  refine ⟨fun hb hk => ?_, fun hb hd hk => ?_, fun hb t ht => ?_, rfl⟩
  · have hok : breaksSync w (setInputs rest s) = false := breaksSync_false_iff.mpr fun hd => keepsContract_iff.mpr (hk hd)
    refine ⟨accept w (setInputs rest s), ?_, by simp⟩
    rw [step_of_start hi hb, acceptEdge, hok]
    rfl
  · have hbreak : breaksSync w (setInputs rest s) = true :=
      breaksSync_iff.mpr ⟨hd, Bool.eq_false_iff.mpr (mt keepsContract_iff.mp hk)⟩
    rw [step_of_start hi hb, acceptEdge, hbreak]
    rfl
  · exact edge_inputs ((step_of_held (.inr hi) hb).symm.trans ht)

/-- The state after an edge of a running command: the result is signalled when the command is done, and only then. -/
def PulseOnDone (t : State) : Prop := t.rspValid = true ↔ t.busy = false

theorem pulseOnDone_respond (v : Status) (d : Option DataWord) (s : State) : PulseOnDone (respond v d s) :=
  iff_of_true rfl rfl

theorem pulseOnDone_of_busy (hv : s.rspValid = false) (hb : s.busy = true) : PulseOnDone s := by
  simp [PulseOnDone, hv, hb]

theorem pulseOnDone_conclude (hb : s.busy = true) : PulseOnDone (conclude s) := by
  rcases conclude_cases s with ⟨-, e⟩ | ⟨-, e⟩ | ⟨-, e⟩ | ⟨-, -, -, e⟩ <;> rw [e]
  · exact pulseOnDone_respond _ _ _
  · exact pulseOnDone_respond _ _ _
  · obtain ⟨v, d, -, e⟩ := judgeFrame_eq_respond s
    exact e ▸ pulseOnDone_respond v d s
  · exact pulseOnDone_of_busy rfl hb

theorem pulseOnDone_finish (hb : s.busy = true) : PulseOnDone (finish s) := by
  rcases finish_cases s with ⟨-, e⟩ | ⟨-, e⟩ <;> rw [e]
  · exact pulseOnDone_of_busy rfl hb
  · exact pulseOnDone_conclude hb

theorem pulseOnDone_of_syncEdge (hb : s.busy = true) (ht : syncEdge s = .next t) : PulseOnDone t := by
  rcases syncEdge_next ht with ⟨-, -, rfl⟩ | ⟨u, c, l, hu, -, -, htest⟩ | ⟨b, l, -, -, hpop⟩ | ⟨-, rfl⟩
  · exact pulseOnDone_finish hb
  · have hu : u.busy = true := by rcases hu with ⟨-, -, rfl⟩ | ⟨-, rfl⟩ <;> exact hb
    rcases htest with ⟨-, rfl⟩ | ⟨-, rfl⟩
    · exact pulseOnDone_finish hu
    · exact pulseOnDone_of_busy rfl hu
  · rcases hpop with ⟨-, rfl⟩ | ⟨-, rfl⟩ | ⟨-, rfl⟩
    · exact pulseOnDone_of_busy rfl hb
    · exact pulseOnDone_of_busy rfl hb
    · exact pulseOnDone_finish hb
  · exact pulseOnDone_conclude hb

/-- Settles O46: an idle block ends the pulse; a busy one starts it when it responds. -/
theorem pulseMarksCompletion : Obligations.PulseMarksCompletion := by
  intro s t ht
  rcases edge_next ht with ⟨hb, rfl⟩ | ⟨hb, -, -, rfl⟩ | ⟨hb, -, -, ⟨d, rfl⟩ | rfl⟩ | ⟨hb, -, -, -, hw⟩
  · simp [hb]
  · exact (pulseOnDone_of_busy (waitEdge_rspValid s) hb).trans (and_iff_right hb).symm
  · exact (pulseOnDone_respond _ _ _).trans (and_iff_right hb).symm
  · exact (pulseOnDone_respond _ _ _).trans (and_iff_right hb).symm
  · exact (pulseOnDone_of_syncEdge hb hw).trans (and_iff_right hb).symm

/-! ## The latency (R80, R104) -/

/-- Nothing is presented but a word, which a busy block leaves as it is. -/
def HeldOrNone (l : List Input) : Prop := l = [] ∨ ∃ w rest, l = .command w :: rest ∨ l = .start w :: rest

theorem step_of_heldOrNone (hi : HeldOrNone s.inputs) (hb : s.busy = true) : step s = edge s := by
  rcases hi with hi | ⟨w, rest, hi⟩
  · exact step_of_nil hi
  · exact step_of_held hi hb

/-- A running command under a kept contract completes within the edges it has left, whatever word is held meanwhile. -/
theorem run_completes (h : Running s) (hc : s.claim = none) (hi : HeldOrNone s.inputs) :
    ∃ n t, 1 ≤ n ∧ n ≤ edgesLeft s ∧ run n s = .next t ∧ t.busy = false ∧ t.rspValid = true ∧ t.inputs = s.inputs := by
  induction hk : edgesLeft s using Nat.strong_induction_on generalizing s with
  | _ k ih =>
    subst hk
    have hstep := step_of_heldOrNone hi h.busy
    rcases edge_of_running h with he | ⟨t, he, hcont⟩
    · obtain ⟨t, ht, hb⟩ := ending_completes hc
      have het := he.trans ht
      exact ⟨1, t, le_rfl, edgesLeft_pos s, (run_one s).trans (hstep.trans het), hb,
        (pulseMarksCompletion s t het).mpr ⟨h.busy, hb⟩, edge_inputs het⟩
    · have hti := edge_inputs he
      have htc := ((edgeCase_of_edge he).accessed_of_busy hcont.running.busy).claim
      obtain ⟨n, u, -, hn, hrun, hb, hv, hu⟩ :=
        ih _ hcont.fewer hcont.running (htc.trans hc) (hti.symm ▸ hi) rfl
      exact ⟨n + 1, u, Nat.le_add_left 1 n, hn.trans_lt hcont.fewer,
        (run_succ_of_next n (hstep.trans he)).trans hrun, hb, hv, hu.trans hti⟩

theorem edgesLeft_le_latMax (h : Sequenced s) : edgesLeft s ≤ Config.latMax := by
  have hworks : s.phase.worksLeft ≤ 4 := by cases s.phase <;> decide
  exact Nat.add_le_add h.bounded hworks

/-- Settles O47: the edges left are at most `LAT_MAX`. -/
theorem completesWithinLatMax : Obligations.CompletesWithinLatMax := by
  intro s h hb hc hi
  obtain ⟨n, t, h1, hn, ht⟩ := run_completes ⟨h, hb, fun _ => .inl hc⟩ hc hi
  exact ⟨n, t, h1, hn.trans (edgesLeft_le_latMax h), ht⟩

/-! ## The receive port (R79) -/

/-- The count saturates above four (R9). -/
theorem four_le_rxCount_limit : 4 ≤ 2 ^ Config.rxCountW - 1 := by
  have : 2 ^ 3 ≤ 2 ^ Config.rxCountW := Nat.pow_le_pow_right two_pos (Nat.le_add_left 3 _)
  omega

/-- Settles O55: the count saturates at four or above. -/
theorem receivePortTellsCount : Obligations.ReceivePortTellsCount := by
  intro s
  have hlimit := four_le_rxCount_limit
  refine ⟨?_, ?_, fun b rest hs => ?_⟩
  · unfold rxCount
    omega
  · unfold rxCount
    omega
  · simp [rxData, peek_cons hs]

@[simp] theorem conclude_stream (s : State) : (conclude s).stream = s.stream := by
  rcases conclude_cases s with ⟨-, e⟩ | ⟨-, e⟩ | ⟨-, e⟩ | ⟨-, -, -, e⟩ <;> simp [e]

@[simp] theorem finish_stream (s : State) : (finish s).stream = s.stream := by
  rcases finish_cases s with ⟨-, e⟩ | ⟨-, e⟩ <;> simp [e]

/-- Before the count is sampled a byte is popped only if four or more have arrived; after it, by the phase (R80, R91). -/
theorem popPhase_of_start (h : s.phase = .start) : popPhase s = true ↔ 4 ≤ avail s := by
  have hcount := (receivePortTellsCount s).1
  have hphase : popPhase s = decide (Config.frameLen ≤ rxCount s) := by simp only [popPhase, h]
  rw [hphase, decide_eq_true_iff, Config.frameLen]
  omega

/-- A working edge of SYNC removes the front byte in the phases that pop, and no byte in the others. -/
theorem syncEdge_pops (ht : syncEdge s = .next t) :
    (popPhase s = true ∧ ∃ b, s.stream = b :: t.stream) ∨ (popPhase s = false ∧ t.stream = s.stream) := by
  rcases syncEdge_next ht with ⟨hp, hl, rfl⟩ | ⟨u, c, l, hu, -, hs, htest⟩ | ⟨b, l, -, hs, hpop⟩ | ⟨hp, rfl⟩
  · exact .inr ⟨Bool.eq_false_iff.mpr (mt (popPhase_of_start hp).mp (Nat.not_le.mpr hl)), finish_stream _⟩
  · have hphase : popPhase s = true := by
      rcases hu with ⟨hp, hl, -⟩ | ⟨hp, -⟩
      · exact (popPhase_of_start hp).mpr hl
      · simp only [popPhase, hp]
    refine .inl ⟨hphase, c, ?_⟩
    rcases htest with ⟨-, rfl⟩ | ⟨-, rfl⟩
    · rw [finish_stream]
      exact hs
    · exact hs
  · rcases hpop with ⟨hp, rfl⟩ | ⟨hp, rfl⟩ | ⟨hp, rfl⟩
    · exact .inl ⟨by simp only [popPhase, hp], b, hs⟩
    · exact .inl ⟨by simp only [popPhase, hp], b, hs⟩
    · exact .inl ⟨by simp only [popPhase, hp], b, by rw [finish_stream]; exact hs⟩
  · exact .inr ⟨by rcases hp with hp | hp | hp <;> simp only [popPhase, hp], conclude_stream s⟩

theorem rxPop_eq_false (h : s.busy = false ∨ waits s = true ∨ decodeCommand s.cmd ≠ .ok .sync) : rxPop s = false := by
  rcases h with h | h | h <;> simp [rxPop, syncWorks, h]

/-- At a working edge of SYNC under a kept contract `rx_pop` is by the phase, as long as there is a byte. -/
theorem rxPop_of_sync (hb : s.busy = true) (hw : waits s = false) (hd : decodeCommand s.cmd = .ok .sync)
    (hk : keepsContract s = true) : rxPop s = (popPhase s && decide (1 ≤ rxCount s)) := by
  simp [rxPop, syncWorks, hb, hw, hd, hk]

theorem one_le_rxCount_of_rxPop (h : rxPop s = true) : 1 ≤ rxCount s := by
  unfold rxPop at h
  exact of_decide_eq_true (Bool.and_eq_true_iff.mp h).2

/-- At every edge that goes on, `rx_pop` is 1 and the front byte goes, or it is 0 and the stream stays. -/
theorem edge_pops (ht : edge s = .next t) :
    (rxPop s = true ∧ ∃ b, s.stream = b :: t.stream) ∨ (rxPop s = false ∧ t.stream = s.stream) := by
  rcases edge_next ht with ⟨hb, rfl⟩ | ⟨-, -, hw, rfl⟩ | ⟨-, -, hd, ⟨d, rfl⟩ | rfl⟩ | ⟨hb, hw, hd, hk, ht⟩
  · exact .inr ⟨rxPop_eq_false (.inl hb), rfl⟩
  · exact .inr ⟨rxPop_eq_false (.inr (.inl hw)), rfl⟩
  · exact .inr ⟨rxPop_eq_false (.inr (.inr hd)), rfl⟩
  · exact .inr ⟨rxPop_eq_false (.inr (.inr hd)), rfl⟩
  · rw [rxPop_of_sync hb hw hd hk]
    rcases syncEdge_pops ht with ⟨hp, b, hs⟩ | ⟨hp, hs⟩
    · have hcount : 1 ≤ rxCount s := (receivePortTellsCount s).2.1.mpr (by simp [avail_eq hk, hs])
      exact .inl ⟨by simp [hp, hcount], b, hs⟩
    · exact .inr ⟨by simp [hp], hs⟩

/-- Settles O56: `rx_pop` is 1 only with a byte counted, and marks the edges that remove the front byte. -/
theorem rxPopRemovesFrontByte : Obligations.RxPopRemovesFrontByte := by
  intro s t _ _ ht
  rcases edge_pops ht with ⟨hp, hs⟩ | ⟨hp, hs⟩
  · exact ⟨fun _ => ⟨one_le_rxCount_of_rxPop hp, hs⟩, fun h => absurd (hp.symm.trans h) nofun⟩
  · exact ⟨fun h => absurd (hp.symm.trans h) nofun, fun _ => hs⟩

end Sys2Proof.Machine
end

/-! SUPPORT. Proofs of the frame synchronizer family (40_frame_synchronizer.md). First the functional form of SYNC by the front of
the stream; then SYNC's answer in its terms, and what each attempt leaves; last SYNC commands run one after the other. -/

section
namespace Sys2Proof.Machine

variable {s t u : State} {x y : List Byte} {b : Byte}

/-! ## The functional form (R93), by the front of the stream -/

/-- `isValid` in numbers: the checksum is the sum of the three bytes modulo 256 (R111). -/
theorem isValid_iff (header high low checksum : Byte) :
    isValid header high low checksum = true ↔ (header.toNat + high.toNat + low.toNat) % 256 = checksum.toNat := by
  simp only [isValid, beq_iff_eq, ← BitVec.toNat_inj, BitVec.extractLsb'_toNat, BitVec.toNat_add, BitVec.toNat_setWidth,
    Nat.shiftRight_zero]
  omega

theorem syncFn_of_short (hl : x.length < 4) : syncFn x = ⟨.insufficientData, 0, none⟩ := by
  match x with
  | [] | [_] | [_, _] | [_, _, _] => rfl
  | _ :: _ :: _ :: _ :: _ => simp only [List.length_cons] at hl; omega

theorem syncFn_of_mismatch (hl : 3 ≤ y.length) (h0 : b ≠ Config.header) : syncFn (b :: y) = ⟨.framingError, 1, none⟩ := by
  have h : b.toNat ≠ 0xFF := fun e => h0 (BitVec.eq_of_toNat_eq e)
  match y with
  | [] | [_] | [_, _] => simp at hl
  | _ :: _ :: _ :: _ => rw [syncFn, if_pos h]

theorem syncFn_of_valid {high low checksum : Byte} (h : (0xFF + high.toNat + low.toNat) % 256 = checksum.toNat) :
    syncFn (0xFF#8 :: high :: low :: checksum :: y) = ⟨.validated, 4, some (distance high low).toNat⟩ := by
  rw [syncFn, if_neg (by decide), if_pos (by exact h), (distanceIsBigEndian high low).1]

theorem syncFn_of_invalid {high low checksum : Byte} (h : (0xFF + high.toNat + low.toNat) % 256 ≠ checksum.toNat) :
    syncFn (0xFF#8 :: high :: low :: checksum :: y) = ⟨.checksumError, 4, none⟩ := by
  rw [syncFn, if_neg (by decide), if_neg (by exact h)]

/-- The four forms of the result: what is consumed follows from the status, and a reading alone has a distance (R75, R93). -/
theorem syncFn_forms (x : List Byte) :
    syncFn x = ⟨.insufficientData, 0, none⟩ ∨ syncFn x = ⟨.framingError, 1, none⟩ ∨
      syncFn x = ⟨.checksumError, 4, none⟩ ∨ ∃ n, syncFn x = ⟨.validated, 4, some n⟩ := by
  unfold syncFn
  split
  · split_ifs
    · exact .inr (.inl rfl)
    · exact .inr (.inr (.inr ⟨_, rfl⟩))
    · exact .inr (.inr (.inl rfl))
  · exact .inl rfl

theorem consumedCount_syncFn (x : List Byte) : (consumedCount (syncFn x).status).toNat = (syncFn x).consumed := by
  rcases syncFn_forms x with e | e | e | ⟨n, e⟩ <;> rw [e] <;> rfl

/-- `VALID` says whether there is a distance (R27, R93). -/
theorem validFlag_syncFn (x : List Byte) : validFlag (syncFn x).status = true ↔ ∃ n, (syncFn x).distance = some n := by
  rcases syncFn_forms x with e | e | e | ⟨n, e⟩ <;> simp [e, validFlag]

/-- The result depends on the first four bytes only (R102). -/
theorem syncFn_take_four (x : List Byte) : syncFn (x.take 4) = syncFn x := by
  match x with
  | [] | [_] | [_, _] | [_, _, _] | _ :: _ :: _ :: _ :: _ => rfl

/-! ## SYNC's answer, in terms of the functional form -/

/-- A SYNC from `s` has completed in `t` with the result `r`: the response has its status and its distance, and its bytes are
gone from the front. -/
structure SyncAnswer (s t : State) (r : SyncResult) : Prop where
  completes : Completes s t ⟨r.status, validFlag r.status, consumedCount r.status, t.rsp.data⟩
  stream : t.stream = s.stream.drop r.consumed
  reading : ∀ n, r.distance = some n → t.rsp.data.toNat = n

/-- A response written after `l` is left of the stream answers with its status, where its `DATA` is the distance due. -/
theorem syncAnswer_respond {v : Status} {d : Option DataWord} {l : List Byte} {f : Frame} {k : Nat} {n : Option Nat}
    (hl : l = s.stream.drop k) (hd : ∀ m, n = some m → (d.getD (Config.freeData s.free)).toNat = m) :
    SyncAnswer s (respond v d { s with stream := l, frame := f }) ⟨v, k, n⟩ :=
  ⟨⟨rfl, rfl, rfl, rfl, rfl, rfl, rfl⟩, hl, hd⟩

/-- Steps 4 and 5 of R91 answer what `syncFn` gives on the four bytes read and any that follow. -/
theorem syncAnswer_judgeFrame {high low checksum : Byte} (hs : s.stream = 0xFF#8 :: high :: low :: checksum :: y) :
    SyncAnswer s (judgeFrame { s with stream := y, frame := ⟨0xFF#8, high, low, checksum⟩ }) (syncFn s.stream) := by
  have hv := isValid_iff 0xFF#8 high low checksum
  rcases judgeFrame_cases { s with stream := y, frame := ⟨0xFF#8, high, low, checksum⟩ } with ⟨h, e⟩ | ⟨h, e⟩ <;>
    rw [e, hs]
  · rw [syncFn_of_valid (hv.mp h)]
    refine syncAnswer_respond (by rw [hs]; rfl) fun m hm => ?_
    cases hm
    exact BitVec.toNat_setWidth_of_le (by decide)
  · rw [syncFn_of_invalid fun hn => Bool.false_ne_true (h.symm.trans (hv.mpr hn))]
    exact syncAnswer_respond (by rw [hs]; rfl) nofun

theorem execSync_answers_short (hk : keepsContract s = true) (hl : s.stream.length < 4) :
    ∃ t, execSync s = .next t ∧ SyncAnswer s t (syncFn s.stream) :=
  ⟨_, execSync_of_short hk hl, syncFn_of_short hl ▸ syncAnswer_respond rfl nofun⟩

/-- With a transport that keeps its contract, SYNC answers what `syncFn` gives on the stream (R93). -/
theorem execSync_answers (hc : s.claim = none) : ∃ t, execSync s = .next t ∧ SyncAnswer s t (syncFn s.stream) := by
  by_cases hl : s.stream.length < 4
  · exact execSync_answers_short (keepsContract_of_honest hc) hl
  · obtain ⟨c0, c1, c2, c3, l, hs⟩ := four_bytes (Nat.not_lt.mp hl)
    by_cases h0 : c0 = Config.header
    · subst h0
      exact ⟨_, execSync_of_frame hc hs rfl, syncAnswer_judgeFrame hs⟩
    · refine ⟨_, execSync_of_mismatch hc hs h0, ?_⟩
      rw [hs, syncFn_of_mismatch (by simp) h0]
      exact syncAnswer_respond (by rw [hs]; rfl) nofun

/-! ## One attempt, by its outcome -/

/-- Settles O20: the count decides before any byte is looked at. -/
theorem syncInsufficientData : Obligations.SyncInsufficientData := by
  intro s hk hl
  obtain ⟨t, ht, ha⟩ := execSync_answers_short hk hl
  rw [syncFn_of_short hl] at ha
  exact ⟨t, _, ht, ha.completes, ha.stream⟩

/-- Settles O21: by whether three bytes follow the front byte. -/
theorem syncFramingError : Obligations.SyncFramingError := by
  intro s b rest hc hs h0
  obtain ⟨t, ht, ha⟩ := execSync_answers hc
  refine ⟨fun hl => ?_, fun hl => ?_⟩
  · rw [hs, syncFn_of_mismatch hl h0] at ha
    exact ⟨t, _, ht, ha.completes, ha.stream.trans (by rw [hs]; rfl)⟩
  · rw [syncFn_of_short (by rw [hs]; exact Nat.succ_lt_succ hl)] at ha
    exact ⟨t, _, ht, ha.completes, ha.stream⟩

/-- Settles O22: `syncFn` on a frame whose checksum fails. -/
theorem syncChecksumError : Obligations.SyncChecksumError := by
  intro s high low checksum rest hc hs hsum
  obtain ⟨t, ht, ha⟩ := execSync_answers hc
  rw [hs, syncFn_of_invalid hsum] at ha
  exact ⟨t, _, ht, ha.completes, ha.stream.trans (by rw [hs]; rfl)⟩

/-- The `DATA` of a reading is its distance as a 64-bit number (R97). -/
theorem SyncAnswer.data_of_reading {high low : Byte} {k : Nat}
    (h : SyncAnswer s t ⟨.validated, k, some (distance high low).toNat⟩) :
    t.rsp.data = BitVec.ofNat 64 (256 * high.toNat + low.toNat) := by
  rw [← (distanceIsBigEndian high low).2, ← h.reading _ rfl, BitVec.ofNat_toNat, BitVec.setWidth_eq]

/-- Settles O23: `syncFn` on a frame that passes. -/
theorem syncValidated : Obligations.SyncValidated := by
  intro s high low checksum rest hc hs hsum
  obtain ⟨t, ht, ha⟩ := execSync_answers hc
  rw [hs, syncFn_of_valid hsum] at ha
  exact ⟨t, ht, ha.data_of_reading ▸ ha.completes, ha.stream.trans (by rw [hs]; rfl)⟩

/-- Settles O24: the end of a frame read leaves `F` as the four pops filled it. -/
theorem frameReadFillsF : Obligations.FrameReadFillsF := by
  intro s high low checksum rest hc hs
  exact ⟨_, execSync_of_frame hc hs rfl, judgeFrame_frame _⟩

/-- Settles O25: `CONSUMED` and `VALID` follow from the status in `syncFn`'s result too. -/
theorem syncEqualsFunctionalForm : Obligations.SyncEqualsFunctionalForm := by
  intro s hc
  obtain ⟨t, ht, ha⟩ := execSync_answers hc
  have hr := ha.completes.rsp
  refine ⟨t, ht, by rw [hr], ?_, ha.stream, ?_, ha.reading⟩
  · rw [hr]; exact consumedCount_syncFn s.stream
  · rw [hr]; exact validFlag_syncFn s.stream

/-- Settles O29: `syncFn` gives one result on both streams, and the answers are that result's. -/
theorem syncDependsOnFrontOnly : Obligations.SyncDependsOnFrontOnly := by
  intro s s' hc hc' hfront
  have hfn : syncFn s'.stream = syncFn s.stream := by
    rcases hfront with ⟨hl, hl'⟩ | ⟨-, -, htake⟩
    · rw [syncFn_of_short hl, syncFn_of_short hl']
    · rw [← syncFn_take_four, ← htake, syncFn_take_four]
  obtain ⟨t, ht, ha⟩ := execSync_answers hc
  obtain ⟨t', ht', ha'⟩ := execSync_answers hc'
  rw [hfn] at ha'
  have hr := ha.completes.rsp
  have hr' := ha'.completes.rsp
  have hcount := consumedCount_syncFn s.stream
  refine ⟨t, t', ht, ht', by rw [hr, hr'], by rw [hr, hr'], by rw [hr, hr'], fun hv => ?_, ?_, ?_⟩
  · obtain ⟨n, hn⟩ := (validFlag_syncFn s.stream).mp (by rw [hr] at hv; exact hv)
    exact BitVec.eq_of_toNat_eq ((ha.reading n hn).trans (ha'.reading n hn).symm)
  · rw [ha.stream, hr, ← hcount]
  · rw [ha'.stream, hr', ← hcount]

/-! ## SYNC commands one after the other -/

/-- What one SYNC leaves of a stream (R93). -/
def unread (x : List Byte) : List Byte := x.drop (syncFn x).consumed

/-- An idle block with a transport that keeps its contract, at which `n` SYNC commands are presented next. -/
structure SyncsPending (n : Nat) (rest : List Input) (s : State) : Prop where
  busy : s.busy = false
  claim : s.claim = none
  inputs : s.inputs = syncs n ++ rest

variable {rest : List Input}

theorem step_of_syncsPending {n : Nat} (h : SyncsPending (n + 1) rest s) :
    ∃ t, step s = .next t ∧ SyncsPending n rest t ∧
      SyncAnswer (latch 0x000000000#36 (setInputs (syncs n ++ rest) s)) t (syncFn s.stream) := by
  obtain ⟨t, ht, ha⟩ := execSync_answers (s := latch 0x000000000#36 (setInputs (syncs n ++ rest) s)) h.claim
  have hstep := step_of_command h.inputs h.busy
  rw [runLatched_of_sync (by decide)] at hstep
  exact ⟨t, hstep.trans ht, ⟨ha.completes.busy, ha.completes.claim.trans h.claim, ha.completes.inputs⟩, ha⟩

/-- `k` SYNC commands leave what `k` attempts leave of the stream. -/
theorem run_syncs {k m : Nat} (h : SyncsPending (m + k) rest s) :
    ∃ t, run k s = .next t ∧ SyncsPending m rest t ∧ t.stream = unread^[k] s.stream := by
  induction k generalizing s with
  | zero => exact ⟨s, rfl, h, rfl⟩
  | succ k ih =>
    obtain ⟨u, hu, hpend, ha⟩ := step_of_syncsPending h
    obtain ⟨t, hrun, ht, hs⟩ := ih hpend
    exact ⟨t, (run_succ_of_next k hu).trans hrun, ht, by rw [hs, ha.stream]; rfl⟩

/-- Of `k + 1` SYNC commands the last answers for what the others leave of the stream. -/
theorem run_syncs_answer {k m : Nat} (h : SyncsPending (m + 1 + k) rest s) :
    ∃ t u, run k s = .next t ∧ t.stream = unread^[k] s.stream ∧ run (k + 1) s = .next u ∧
      SyncAnswer (latch 0x000000000#36 (setInputs (syncs m ++ rest) t)) u (syncFn (unread^[k] s.stream)) := by
  obtain ⟨t, hrun, hpend, hs⟩ := run_syncs h
  obtain ⟨u, hu, -, ha⟩ := step_of_syncsPending hpend
  exact ⟨t, u, hrun, hs, (run_add_of_next k 1 hrun).trans ((run_one t).trans hu), hs ▸ ha⟩

/-! ## Progress (R99) -/

/-- An attempt that sees four bytes takes at least one. -/
theorem syncFn_consumed_pos (hl : 4 ≤ x.length) : 1 ≤ (syncFn x).consumed := by
  match x with
  | [] | [_] | [_, _] | [_, _, _] => simp at hl
  | c0 :: c1 :: c2 :: c3 :: l =>
    by_cases h0 : c0 = Config.header
    · rw [syncFn_consumed_of_frame h0]; decide
    · rw [syncFn_consumed_of_mismatch h0]

theorem unread_length_lt (hl : 4 ≤ x.length) : (unread x).length < x.length := by
  have := syncFn_consumed_pos hl
  simp only [unread, List.length_drop]
  omega

/-- `L - 3` attempts on `L` bytes leave fewer than four. -/
theorem unread_iterate_length_lt {n : Nat} (h : x.length - 3 ≤ n) : (unread^[n] x).length < 4 := by
  induction n generalizing x with
  | zero => simp only [Function.iterate_zero_apply]; omega
  | succ n ih =>
    refine ih ?_
    by_cases hl : 4 ≤ x.length
    · have := unread_length_lt hl; omega
    · simp only [unread, List.length_drop]; omega

/-- Settles O27: by the length of what each attempt leaves. -/
theorem syncMakesProgress : Obligations.SyncMakesProgress := by
  refine ⟨fun s t hl ht => ?_, fun s n rest hb hc hi hn => ?_⟩
  · cases hc : s.claim with
    | some m => cases (execSync_of_claim hc hl).symm.trans ht
    | none =>
      obtain ⟨u, hu, ha⟩ := execSync_answers hc
      cases hu.symm.trans ht
      exact ha.stream ▸ unread_length_lt hl
  · obtain ⟨t, u, hrun, hs, hrun', ha⟩ :=
      run_syncs_answer (s := s) (k := n) (m := 0) ⟨hb, hc, by rw [hi, Nat.add_comm]⟩
    have hlt := unread_iterate_length_lt hn
    rw [syncFn_of_short hlt] at ha
    exact ⟨t, u, hrun, hs ▸ hlt, hrun', by rw [ha.completes.rsp]⟩

/-! ## Resynchronization (R101) -/

/-- Attempts on bytes other than `0xFF` before at least three more take one byte each. -/
theorem unread_iterate_noise {noise : List Byte} {k : Nat} (hn : ∀ b ∈ noise, b ≠ 0xFF#8) (hy : 3 ≤ y.length)
    (hk : k ≤ noise.length) : unread^[k] (noise ++ y) = noise.drop k ++ y := by
  induction noise generalizing k with
  | nil => rw [Nat.le_zero.mp hk]; rfl
  | cons b noise ih =>
    cases k with
    | zero => rfl
    | succ k =>
      have hb : syncFn (b :: (noise ++ y)) = ⟨.framingError, 1, none⟩ :=
        syncFn_of_mismatch (by rw [List.length_append]; omega) (hn b List.mem_cons_self)
      have hone : unread (b :: noise ++ y) = noise ++ y := by rw [List.cons_append, unread, hb]; rfl
      rw [Function.iterate_succ_apply, hone]
      exact ih (fun c hc => hn c (List.mem_cons_of_mem b hc)) (Nat.le_of_succ_le_succ hk)

/-- Settles O28: the attempts before the frame see a noise byte at the front, the next one the frame. -/
theorem resynchronizationBound : Obligations.ResynchronizationBound := by
  intro s noise tail high low checksum rest hb hc hn hsum hs hi
  have hleft (k : Nat) (hk : k ≤ noise.length) := unread_iterate_noise (y := 0xFF#8 :: high :: low :: checksum :: tail) hn
    (by simp) hk
  rw [← hs] at hleft
  refine ⟨fun k hk => ?_, ?_⟩
  · obtain ⟨t, u, -, hts, hrun, ha⟩ := run_syncs_answer (s := s) (k := k) (m := noise.length - k)
      ⟨hb, hc, by rw [hi, show noise.length - k + 1 + k = noise.length + 1 by omega]⟩
    rw [hleft k hk.le, List.drop_eq_getElem_cons hk] at hts ha
    have hl : 3 ≤ (noise.drop (k + 1) ++ 0xFF#8 :: high :: low :: checksum :: tail).length := by
      simp only [List.length_append, List.length_cons]; omega
    rw [List.cons_append, syncFn_of_mismatch hl (hn _ (List.getElem_mem hk))] at ha
    have hr := ha.completes.rsp
    exact ⟨u, hrun, by rw [hr], by rw [hr]; rfl, by rw [hr]; rfl, ha.stream.trans (congrArg (List.drop 1) hts)⟩
  · obtain ⟨t, u, -, hts, hrun, ha⟩ := run_syncs_answer (s := s) (k := noise.length) (m := 0)
      ⟨hb, hc, by rw [hi, Nat.zero_add, Nat.add_comm]⟩
    rw [hleft _ le_rfl, List.drop_length, List.nil_append] at hts ha
    rw [syncFn_of_valid hsum.symm] at ha
    have hr := ha.completes.rsp
    exact ⟨u, hrun, by rw [hr], by rw [hr]; rfl, ha.data_of_reading, ha.stream.trans (congrArg (List.drop 4) hts)⟩

end Sys2Proof.Machine
end

/-! SUPPORT. Proofs of the checksum validator family (41_checksum_validator.md). First `isValid` as an equation between bytes;
then what it says of a changed byte; last the commands that answer without the stream. -/

section
namespace Sys2Proof.Machine

variable {header high low checksum : Byte}

/-! ## `isValid` as an equation between bytes (R111) -/

/-- `isValid` in bytes: the sum that wraps is the checksum (R111). -/
theorem isValid_iff_add_eq : isValid header high low checksum = true ↔ header + high + low = checksum := by
  rw [isValid_iff, ← BitVec.toNat_inj, BitVec.toNat_add, BitVec.toNat_add, Nat.mod_add_mod]

theorem isValid_eq_false_iff : isValid header high low checksum = false ↔ header + high + low ≠ checksum := by
  rw [← Bool.not_eq_true, isValid_iff_add_eq]

/-- Settles O9: in numbers and in bytes. -/
theorem checksumIsSumModulo256 : Obligations.ChecksumIsSumModulo256 :=
  fun header high low checksum => ⟨isValid_iff header high low checksum, isValid_iff_add_eq⟩

/-- Settles O10: the checksum that passes is the sum, whatever the header. -/
theorem headerIsNotTested : Obligations.HeaderIsNotTested :=
  ⟨isValid_iff_add_eq.mpr (by decide), fun _ _ _ => ⟨_, isValid_iff_add_eq.mpr rfl⟩⟩

/-- Settles O11: the checksums that fail are the 256 bytes without the sum. -/
theorem oneChecksumIsValid : Obligations.OneChecksumIsValid := by
  intro header high low
  refine ⟨fun checksum => (isValid_iff header high low checksum).trans eq_comm, ?_⟩
  have hbytes : Fintype.card Byte = 256 := FinEnum.card_eq_fintypeCard.symm.trans (FinEnum.card_bitVec 8)
  simp only [isValid_eq_false_iff, Finset.filter_ne]
  rw [Finset.card_erase_of_mem (Finset.mem_univ _), Finset.card_univ, hbytes]

/-- Settles O12: one changed byte changes one side of the equation; the pairs of changes named change neither or both alike. -/
theorem singleByteChangeIsDetected : Obligations.SingleByteChangeIsDetected := by
  intro header high low checksum hvalid
  obtain rfl := isValid_iff_add_eq.mp hvalid
  refine ⟨fun b hb => ?_, fun b hb => ?_, fun b hb => ?_, fun d => ?_, fun d => ?_⟩
  · exact isValid_eq_false_iff.mpr fun h => hb (add_left_cancel (add_right_cancel h))
  · exact isValid_eq_false_iff.mpr fun h => hb (add_left_cancel h)
  · exact isValid_eq_false_iff.mpr hb.symm
  · exact isValid_iff_add_eq.mpr (by ring)
  · exact isValid_iff_add_eq.mpr (by ring)

/-! ## The commands that answer without the stream -/

theorem completes_respond (v : Status) (d : Option DataWord) (s : State) :
    Completes s (respond v d s) ⟨v, validFlag v, consumedCount v, d.getD (Config.freeData s.free)⟩ :=
  ⟨rfl, rfl, rfl, rfl, rfl, rfl, rfl⟩

/-- Settles O14: CHECK's one action is its response. -/
theorem checkCompletes : Obligations.CheckCompletes := by
  intro header high low checksum s
  simp only [← isValid_iff]
  exact ⟨_, rfl, completes_respond .complete (some _) s, respond_stream ..⟩

/-- A command other than SYNC answers `Complete` with one `DATA` from every state (R115, R127). -/
theorem exec_of_ne_sync {i : Instr} (h : i ≠ .sync) : ∃ d, ∀ s, exec i s = .next (respond .complete (some d) s) := by
  cases i with
  | sync => exact absurd rfl h
  | check | decode | tocm => exact ⟨_, fun _ => rfl⟩

/-- Settles O19: one response from every state. -/
theorem pureCommandsIgnoreState : Obligations.PureCommandsIgnoreState := by
  intro i s s' h
  obtain ⟨d, hd⟩ := exec_of_ne_sync h
  exact ⟨_, _, hd s, hd s', rfl⟩

end Sys2Proof.Machine
end

/-! SUPPORT. Proofs of the distance decoder family (42_distance_decoder.md). First which rationals the binary64 numbers are, and
when a pattern is strictly the nearest; then what TOCM's quotient is, in units of a power of two; last DECODE and TOCM. -/

section
namespace Sys2Proof.Machine

variable {b : DataWord} {v x : ℚ} {mm : Millimetres}

namespace Binary64

/-! ## The finite numbers of binary64 (R126) -/

/-- A finite pattern stands for an integer of at most 53 bits in units of its exponent. -/
theorem exists_int_of_value (h : value b = some v) :
    ∃ n : ℤ, |n| ≤ 2 ^ 53 - 1 ∧ v = n * (2 : ℚ) ^ exponent b := by
  have hf : fracField b < 2 ^ 52 := (b.extractLsb' 0 52).isLt
  have hs : significand b < 2 ^ 53 := by unfold significand; split <;> omega
  unfold value at h
  split at h
  · cases h
  · cases h
    cases signBit b with
    | false => exact ⟨significand b, by rw [Nat.abs_cast]; omega, by simp⟩
    | true => exact ⟨-significand b, by rw [abs_neg, Nat.abs_cast]; omega, by simp⟩

theorem expField_lt_of_value (h : value b = some v) : expField b < 2047 := by
  have hlt : expField b < 2 ^ 11 := (b.extractLsb' 52 11).isLt
  unfold value at h
  split at h
  · cases h
  · omega

theorem value_le_of_exponent_le {e : ℤ} (h : value b = some v) (he : exponent b ≤ e) :
    v ≤ (2 ^ 53 - 1) * (2 : ℚ) ^ e := by
  obtain ⟨n, hn, rfl⟩ := exists_int_of_value h
  have hnq : (n : ℚ) ≤ 2 ^ 53 - 1 := by exact_mod_cast (le_abs_self n).trans hn
  calc (n : ℚ) * 2 ^ exponent b ≤ (2 ^ 53 - 1) * 2 ^ exponent b := by gcongr
    _ ≤ (2 ^ 53 - 1) * 2 ^ e := by gcongr; norm_num

/-- A number of at least a tenth is far above the subnormal ones. -/
theorem expField_pos_of_value (h : value b = some v) (hv : 1 / 10 ≤ v) : 0 < expField b := by
  by_contra h0
  have he : exponent b = -1074 := by rw [exponent, Nat.eq_zero_of_not_pos h0]; rfl
  have hle := value_le_of_exponent_le (e := -57) h (by omega)
  norm_num at hle
  linarith

/-- In units of `2 ^ -k` a binary64 number is an integer, or it is below `2 ^ 52` by at least a half. -/
theorem scaled_of_value (h : value b = some v) (k : ℕ) :
    (∃ n : ℤ, v * 2 ^ k = n) ∨ v * 2 ^ k ≤ 2 ^ 52 - 1 / 2 := by
  rcases le_or_gt 0 (exponent b + k) with he | he
  · obtain ⟨n, -, rfl⟩ := exists_int_of_value h
    obtain ⟨j, hj⟩ := Int.eq_ofNat_of_zero_le he
    refine .inl ⟨n * 2 ^ j, ?_⟩
    rw [mul_assoc, ← zpow_natCast, ← zpow_add₀ two_ne_zero, hj]
    push_cast
    rfl
  · right
    have hle := value_le_of_exponent_le (e := -k - 1) h (by omega)
    calc v * 2 ^ k ≤ (2 ^ 53 - 1) * 2 ^ (-k - 1 : ℤ) * 2 ^ k := by gcongr
      _ = 2 ^ 52 - 1 / 2 := by
        rw [zpow_sub_one₀ two_ne_zero, zpow_neg, zpow_natCast]; field_simp

/-! ## When a pattern is strictly the nearest (R126) -/

theorem strictlyNearest_of_exact (h : value b = some x) : StrictlyNearest x b :=
  ⟨x, h, fun _ _ _ hne => by rw [sub_self, abs_zero]; exact abs_pos.mpr (sub_ne_zero.mpr hne)⟩

/-- An integer number of units that is less than a half unit from `x` is strictly the nearest, where `x` is
`2 ^ 52` units or more: a number off the units is below that. -/
theorem strictlyNearest_of_scaled {k m : ℕ} (hv : value b = some v) (hm : v * 2 ^ k = m)
    (herr : |(m : ℚ) - x * 2 ^ k| < 1 / 2) (hx : 2 ^ 52 ≤ x * 2 ^ k) : StrictlyNearest x b := by
  have hpos : (0 : ℚ) < 2 ^ k := by positivity
  refine ⟨v, hv, fun b' v' hv' hne => ?_⟩
  suffices h : |v * 2 ^ k - x * 2 ^ k| < |v' * 2 ^ k - x * 2 ^ k| by
    rwa [← sub_mul, ← sub_mul, abs_mul, abs_mul, abs_of_pos hpos, mul_lt_mul_iff_left₀ hpos] at h
  rw [hm]
  refine herr.trans_le ?_
  rcases scaled_of_value hv' k with ⟨n, hn⟩ | hsmall
  · have hnm : n - (m : ℤ) ≠ 0 := fun h => hne <| mul_right_cancel₀ hpos.ne' <| by
      rw [hn, hm]; exact_mod_cast sub_eq_zero.mp h
    have hgap : (1 : ℚ) ≤ |(n : ℚ) - m| := by exact_mod_cast Int.one_le_abs hnm
    have htri := abs_sub_le (n : ℚ) (x * 2 ^ k) m
    rw [abs_sub_comm (x * 2 ^ k)] at htri
    rw [hn]
    linarith
  · exact le_abs.mpr (.inr (by linarith))

/-! ## The quotient `mm / 10` (R125) -/

theorem centimetres_zero : centimetres 0#16 = 0#64 := by decide

theorem value_zero : value 0#64 = some 0 := by
  rw [value, if_neg (by decide), show significand 0#64 = 0 by decide, Nat.cast_zero, mul_zero, zero_mul]

theorem signBit_centimetres (mm : Millimetres) : signBit (centimetres mm) = false := signBit_ofRatio _ _

/-- TOCM rounds the ratio `mm / 10` once. -/
theorem centimetres_eq_ofRatio (h : 0 < mm.toNat) :
    ∃ num den : ℕ, centimetres mm = ofRatio num den ∧ (num : ℚ) / den = mm.toNat / 10 ∧ 0 < num ∧ 0 < den := by
  have hlt : mm.toNat < 2 ^ 53 := mm.isLt.trans (by norm_num)
  obtain ⟨num, den, hdiv, hr⟩ :=
    divide_ratio (ofNat_exact h hlt) value_ten (signBit_ofRatio _ _) (show signBit ten = false by decide)
  have hne : (num : ℚ) / den ≠ 0 := by rw [hr]; positivity
  obtain ⟨hnum, hden⟩ := div_ne_zero_iff.mp hne
  exact ⟨num, den, hdiv, hr, Nat.pos_of_ne_zero (Nat.cast_ne_zero.mp hnum), Nat.pos_of_ne_zero (Nat.cast_ne_zero.mp hden)⟩

/-- TOCM's number in units of `2 ^ -(k + 1)`, of which `mm / 10` is `mm * 2 ^ k / 5`, a number of 53 bits: it is a whole number
`m` of units, at most two fifths of a unit away, so never a half. -/
theorem centimetres_spec (h : 0 < mm.toNat) :
    ∃ (k m : ℕ) (v : ℚ), value (centimetres mm) = some v ∧ v * 2 ^ (k + 1) = m ∧
      |5 * (m : ℤ) - mm.toNat * 2 ^ k| ≤ 2 ∧ 5 * 2 ^ 52 ≤ mm.toNat * 2 ^ k ∧ mm.toNat * 2 ^ k < 5 * 2 ^ 53 := by
  obtain ⟨num, den, hdiv, hr, hnum, hden⟩ := centimetres_eq_ofRatio h
  have hlow : (1 : ℚ) ≤ mm.toNat := by exact_mod_cast h
  have hhigh : (mm.toNat : ℚ) < 65536 := by exact_mod_cast mm.isLt
  obtain ⟨he, he'⟩ := unitExponent_bounds (a := -4) (b := 13) hnum hden (by rw [hr]; norm_num; linarith)
    (by rw [hr]; norm_num; linarith) (by norm_num)
  obtain ⟨m, -, -, hv, herr, lo, hi⟩ := ofRatio_spec hnum hden (by omega) (by omega)
  obtain ⟨k, hk⟩ := Int.eq_ofNat_of_zero_le (show 0 ≤ -unitExponent num den - 1 by omega)
  have hunit : (2 : ℚ) ^ unitExponent num den = (2 ^ (k + 1))⁻¹ := by
    rw [show unitExponent num den = -((k + 1 : ℕ) : ℤ) by push_cast; omega, zpow_neg, zpow_natCast]
  have hscaled : (num : ℚ) / den / (2 : ℚ) ^ unitExponent num den = mm.toNat * 2 ^ k / 5 := by
    rw [hr, hunit, pow_succ]; field_simp; norm_num
  rw [hscaled] at herr lo hi
  refine ⟨k, m, _, (congrArg value hdiv).trans hv, ?_, ?_, ?_, ?_⟩
  · rw [hunit]; field_simp
  · have herr2 : |((2 * (5 * (m : ℤ) - mm.toNat * 2 ^ k) : ℤ) : ℚ)| ≤ (5 : ℤ) := by
      rw [abs_le] at herr ⊢; push_cast; constructor <;> linarith
    have := abs_le.mp (show |2 * (5 * (m : ℤ) - mm.toNat * 2 ^ k)| ≤ 5 by exact_mod_cast herr2)
    exact abs_le.mpr ⟨by omega, by omega⟩
  · have : (5 * 2 ^ 52 : ℚ) ≤ mm.toNat * 2 ^ k := by linarith
    exact_mod_cast this
  · have : (mm.toNat * 2 ^ k : ℚ) < 5 * 2 ^ 53 := by linarith
    exact_mod_cast this

theorem strictlyNearest_centimetres (mm : Millimetres) : StrictlyNearest ((mm.toNat : ℚ) / 10) (centimetres mm) := by
  rcases Nat.eq_zero_or_pos mm.toNat with h0 | hpos
  · obtain rfl : mm = 0#16 := BitVec.eq_of_toNat_eq h0
    exact strictlyNearest_of_exact (by rw [centimetres_zero, value_zero]; norm_num)
  · obtain ⟨k, m, v, hv, hm, herr, lo, -⟩ := centimetres_spec hpos
    have hx : (mm.toNat : ℚ) / 10 * 2 ^ (k + 1) = mm.toNat * 2 ^ k / 5 := by rw [pow_succ]; ring
    have herr' : |5 * (m : ℚ) - mm.toNat * 2 ^ k| ≤ 2 := by exact_mod_cast herr
    have lo' : (5 * 2 ^ 52 : ℚ) ≤ mm.toNat * 2 ^ k := by exact_mod_cast lo
    refine strictlyNearest_of_scaled hv hm ?_ (by rw [hx]; linarith)
    rw [hx]
    rw [abs_le] at herr'
    exact abs_lt.mpr ⟨by linarith, by linarith⟩

/-- The quotient is exact where five divides `mm * 2 ^ k`, and so `mm`: then the error of fifths is a multiple of five. -/
theorem centimetres_exact_iff (mm : Millimetres) :
    value (centimetres mm) = some ((mm.toNat : ℚ) / 10) ↔ mm.toNat % 5 = 0 := by
  rcases Nat.eq_zero_or_pos mm.toNat with h0 | hpos
  · obtain rfl : mm = 0#16 := BitVec.eq_of_toNat_eq h0
    rw [centimetres_zero, value_zero]; simp
  · obtain ⟨k, m, v, hv, hm, herr, -, -⟩ := centimetres_spec hpos
    have hexact : v = (mm.toNat : ℚ) / 10 ↔ 5 * m = mm.toNat * 2 ^ k := by
      rw [← mul_left_inj' (show (2 : ℚ) ^ (k + 1) ≠ 0 by positivity), hm, pow_succ]
      qify
      constructor <;> intro h <;> linarith
    have hdvd : 5 ∣ mm.toNat * 2 ^ k ↔ 5 ∣ mm.toNat :=
      (Nat.Coprime.pow_right k (by norm_num)).dvd_mul_right
    rw [hv, Option.some_inj, hexact, ← Nat.dvd_iff_mod_eq_zero, ← hdvd]
    refine ⟨Dvd.intro m, fun ⟨j, hj⟩ => ?_⟩
    rw [show (mm.toNat : ℤ) * 2 ^ k = 5 * j by exact_mod_cast hj, abs_le] at herr
    omega

/-- One millimetre is rounded up, and from two on rounding cannot go below a tenth. -/
theorem tenth_le_centimetres (h : 0 < mm.toNat) : ∃ v, value (centimetres mm) = some v ∧ 1 / 10 ≤ v := by
  obtain ⟨k, m, v, hv, hm, herr, lo, hi⟩ := centimetres_spec h
  rw [abs_le] at herr
  have hge : 2 ^ k ≤ 5 * m := by
    rcases Nat.lt_or_ge 1 mm.toNat with h2 | h1
    · have : 2 * 2 ^ k ≤ mm.toNat * 2 ^ k := Nat.mul_le_mul_right _ h2
      zify at this lo ⊢
      omega
    · obtain h1 : mm.toNat = 1 := by omega
      rw [h1, Nat.one_mul] at lo hi
      have hk : 54 < k := (Nat.pow_lt_pow_iff_right Nat.one_lt_two).mp (lt_of_lt_of_le (by norm_num) lo)
      have hk' : k < 56 := (Nat.pow_lt_pow_iff_right Nat.one_lt_two).mp (hi.trans (by norm_num))
      obtain rfl : k = 55 := by omega
      rw [h1] at herr
      omega
  refine ⟨v, hv, ?_⟩
  have hgeq : (2 : ℚ) ^ k ≤ 5 * m := by exact_mod_cast hge
  rw [← mul_le_mul_iff_left₀ (show (0 : ℚ) < 2 ^ (k + 1) by positivity), hm, pow_succ]
  linarith

end Binary64

/-! ## DECODE and TOCM -/

/-- Settles O15: DECODE's one action is its response. -/
theorem decodeCompletes : Obligations.DecodeCompletes := by
  intro high low s
  rw [← (distanceIsBigEndian high low).2, BitVec.ofNat_toNat]
  exact ⟨_, rfl, completes_respond .complete (some _) s, respond_stream ..⟩

/-- Settles O16: TOCM's one action is its response, and its number is the rounded quotient. -/
theorem tocmCompletesWithNearest : Obligations.TocmCompletesWithNearest :=
  fun mm s => ⟨_, _, rfl, completes_respond .complete (some _) s, Binary64.strictlyNearest_centimetres mm,
    respond_stream ..⟩

/-- Settles O17: from the quotient's units; the fields follow from the value. -/
theorem tocmExactAndNormal : Obligations.TocmExactAndNormal := by
  refine fun mm => ⟨Binary64.centimetres_exact_iff mm, fun h => h ▸ Binary64.centimetres_zero, fun h => ?_⟩
  have hpos : 0 < mm.toNat := Nat.pos_of_ne_zero fun h0 => h (BitVec.eq_of_toNat_eq h0)
  obtain ⟨v, hv, hge⟩ := Binary64.tenth_le_centimetres hpos
  exact ⟨Binary64.signBit_centimetres mm, Binary64.expField_pos_of_value hv hge, Binary64.expField_lt_of_value hv,
    v, hv, hge⟩

end Sys2Proof.Machine
end

/-! SUPPORT. Proofs of the exceptions family (60_exceptions.md). First what a word does as one atomic operation, by its number;
then the status of SYNC as the chain of its tests; last the two statements. -/

section
namespace Sys2Proof.Machine

variable {s t : State} {w : CmdWord} {r : Response}

/-! ## The atomic operation of a word, by its number (R71) -/

/-- The words that decode to SYNC are the legal ones with `OP` 0. -/
theorem decodeCommand_eq_sync_iff : decodeCommand w = .ok .sync ↔ LegalNumber w ∧ opNumber w = 0 := by
  unfold LegalNumber
  rw [decodeFollowsPseudocode w]
  split_ifs <;> simp <;> omega

theorem runLatched_of_illegal (h : ¬ LegalNumber w) (s : State) :
    runLatched w s = .next (respond .illegalCommand none s) := by
  cases hd : decodeCommand w with
  | ok i => exact absurd (legalNumber_iff_decodes.mpr ⟨i, hd⟩) h
  | illegal why => simp only [runLatched, hd, execIllegal]

/-- A legal word with another `OP` answers `Complete` in every state (R115, R127). -/
theorem runLatched_of_legal (h : LegalNumber w) (hop : opNumber w ≠ 0) (s : State) :
    ∃ d, runLatched w s = .next (respond .complete (some d) s) := by
  obtain ⟨i, hd⟩ := legalNumber_iff_decodes.mp h
  have hi : i ≠ .sync := fun e => hop (decodeCommand_eq_sync_iff.mp (e ▸ hd)).2
  obtain ⟨d, he⟩ := exec_of_ne_sync hi
  exact ⟨d, by simp only [runLatched, hd, he]⟩

/-- Latching the word changes nothing that a completion is compared with. -/
theorem Completes.of_latch (h : Completes (latch w s) t r) : Completes s t r :=
  ⟨h.rsp, h.st, h.busy, h.rspValid, h.claim, h.sent, h.inputs⟩

/-! ## The tests of SYNC, in order (R144) -/

/-- With four bytes or more the header decides before the checksum. -/
theorem syncFn_status_of_four (c0 c1 c2 c3 : Byte) (l : List Byte) :
    (syncFn (c0 :: c1 :: c2 :: c3 :: l)).status =
      if c0 ≠ 0xFF#8 then .framingError
      else if isValid c0 c1 c2 c3 = false then .checksumError
      else .validated := by
  by_cases h0 : c0 = 0xFF#8
  · subst h0
    have hv := isValid_iff 0xFF#8 c1 c2 c3
    cases h : isValid 0xFF#8 c1 c2 c3 with
    | true => rw [syncFn_of_valid (hv.mp h)]; rfl
    | false => rw [syncFn_of_invalid (mt hv.mpr (Bool.eq_false_iff.mp h))]; rfl
  · rw [syncFn_of_mismatch (by simp) h0, if_pos h0]

/-! ## The statements -/

/-- Settles O18: the words named are those that are not legal, and their one action is the response. -/
theorem illegalWordCompletes : Obligations.IllegalWordCompletes := by
  intro w s rest hw hb hi
  have hbad : ¬ LegalNumber w := by unfold LegalNumber; omega
  exact ⟨_, _, (step_of_command hi hb).trans (runLatched_of_illegal hbad _), (completes_respond _ _ _).of_latch, rfl⟩

/-- Settles O38: by whether the word is legal and whether it is SYNC's; SYNC's tests are those of `syncFn`. -/
theorem firstDecidingTestGivesStatus : Obligations.FirstDecidingTestGivesStatus := by
  intro s w rest hb hc hi
  rw [step_of_command hi hb]
  by_cases hl : LegalNumber w
  · by_cases hop : opNumber w = 0
    · obtain ⟨t, ht, ha⟩ := execSync_answers (s := latch w (setInputs rest s)) hc
      have hstatus : t.rsp.status = (syncFn s.stream).status := by rw [ha.completes.rsp]; rfl
      rw [runLatched_of_sync (decodeCommand_eq_sync_iff.mpr ⟨hl, hop⟩)]
      refine ⟨t, ht, ha.completes.rspValid, fun h => absurd hl h, fun _ h => absurd hop h, fun _ _ => ⟨fun hlen => ?_, ?_⟩⟩
      · rw [hstatus, syncFn_of_short hlen]
      · intro c0 c1 c2 c3 l hs
        rw [hstatus, hs, syncFn_status_of_four]
    · obtain ⟨d, ht⟩ := runLatched_of_legal hl hop (latch w (setInputs rest s))
      exact ⟨_, ht, rfl, fun h => absurd hl h, fun _ _ => rfl, fun _ h => absurd h hop⟩
  · exact ⟨_, runLatched_of_illegal hl _, rfl, fun _ => rfl, fun h => absurd h hl, fun h => absurd h hl⟩

end Sys2Proof.Machine
end

/-! SUPPORT. Proofs of the reset and hazards family (70_reset_and_hazards.md). First the reset edge; then a SYNC that is cut
by it, at any edge and on the reference schedule; last a header byte of noise before a frame. -/

section
namespace Sys2Proof.Machine

variable {s t u : State} {w : CmdWord} {x : List Byte} {l : List Input}

/-! ## The reset edge (R160) -/

/-- Settles O53: the outputs are masked by `rst`, and the reset edge writes the values of R34 in every state. -/
theorem resetEdgeSetsResetValues : Obligations.ResetEdgeSetsResetValues := by
  intro s rest hi
  exact ⟨rfl, rfl, rfl, _, step_of_reset hi, rfl, rfl, rfl, rfl, rfl, rfl, rfl, rfl, rfl⟩

/-- A run that comes to a reset edge goes on with it. -/
theorem run_succ_of_reset {n : Nat} (h : run n s = .next t) (hi : t.inputs = .reset :: l) :
    run (n + 1) s = .next (resetEdge (setInputs l t)) :=
  (run_add_of_next n 1 h).trans ((run_one t).trans (step_of_reset hi))

/-! ## A SYNC that still runs (R161)

What it leaves of the stream in the end is fixed at its acceptance, and at every edge until then that is a suffix of what is
there. -/

/-- What a SYNC in progress leaves of the stream if it runs to its response, by how far it has come (R91). -/
def leaves (s : State) : List Byte :=
  match s.phase with
  | .start => unread s.stream
  | .header => unread s.stream
  | .high => s.stream.drop 3
  | .low => s.stream.drop 2
  | .checksum => s.stream.drop 1
  | .few => s.stream
  | .mismatch => s.stream
  | .full => s.stream

theorem leaves_suffix (s : State) : leaves s <:+ s.stream := by
  unfold leaves
  cases s.phase with
  | start => exact List.drop_suffix _ _
  | header => exact List.drop_suffix _ _
  | high => exact List.drop_suffix _ _
  | low => exact List.drop_suffix _ _
  | checksum => exact List.drop_suffix _ _
  | few => exact List.suffix_rfl
  | mismatch => exact List.suffix_rfl
  | full => exact List.suffix_rfl

/-- `leaves` is the stream of the ending. -/
theorem ending_leaves (hd : decodeCommand s.cmd = .ok .sync) (hc : s.claim = none) :
    ∃ e, ending s = .next e ∧ e.stream = leaves s := by
  have hattempt : ∃ e, runLatched s.cmd s = .next e ∧ e.stream = unread s.stream := by
    obtain ⟨e, he, ha⟩ := execSync_answers hc
    exact ⟨e, (runLatched_of_sync hd s).trans he, ha.stream⟩
  unfold ending leaves
  cases s.phase with
  | start => exact hattempt
  | header => exact hattempt
  | high => exact ⟨_, rfl, judgeFrame_stream _⟩
  | low => exact ⟨_, rfl, judgeFrame_stream _⟩
  | checksum => exact ⟨_, rfl, judgeFrame_stream _⟩
  | few => exact ⟨_, rfl, conclude_stream s⟩
  | mismatch => exact ⟨_, rfl, conclude_stream s⟩
  | full => exact ⟨_, rfl, conclude_stream s⟩

theorem leaves_eq_of_ending_eq (hd : decodeCommand s.cmd = .ok .sync) (hc : s.claim = none)
    (hd' : decodeCommand t.cmd = .ok .sync) (hc' : t.claim = none) (h : ending t = ending s) : leaves t = leaves s := by
  obtain ⟨e, he, hs⟩ := ending_leaves hd hc
  obtain ⟨e', he', ht⟩ := ending_leaves hd' hc'
  cases (he'.symm.trans h).trans he
  exact ht.symm.trans hs

/-- A SYNC accepted with the bytes `x` in the stream still runs, under a transport that keeps its contract: what is
in the stream ends `x`, and what it leaves there in the end is what the attempt on `x` leaves. -/
structure RunsOn (x : List Byte) (s : State) : Prop where
  running : Running s
  sync : decodeCommand s.cmd = .ok .sync
  honest : s.claim = none
  removed : s.stream <:+ x
  left : leaves s = unread x

theorem RunsOn.setInputs (l : List Input) (h : RunsOn x s) : RunsOn x (setInputs l s) :=
  ⟨⟨h.running.sequenced.setInputs l, h.running.busy, h.running.count⟩, h.sync, h.honest, h.removed, h.left⟩

/-- A ready block accepts any word under a transport that keeps its contract (R78). -/
theorem step_of_start_honest (hi : s.inputs = .start w :: l) (hb : s.busy = false) (hc : s.claim = none) :
    step s = .next (accept w (setInputs l s)) := by
  rw [step_of_start hi hb, acceptEdge, breaksSync_of_honest w (by exact hc)]
  rfl

theorem runsOn_accept (hd : decodeCommand w = .ok .sync) (hc : s.claim = none) : RunsOn s.stream (accept w s) where
  running := running_accept (breaksSync_of_honest w hc)
  sync := (accept_cmd s w).symm ▸ hd
  honest := (accept_claim s w).trans hc
  removed := accept_stream s w ▸ List.suffix_rfl
  left := by
    rcases accept_cases w s with e | ⟨-, hl, e⟩ | ⟨-, -, e⟩ <;> rw [e]
    · rfl
    · rw [avail_eq (keepsContract_of_honest hc)] at hl
      rw [unread, syncFn_of_short hl]
      rfl
    · rfl

/-- An edge after which the block is busy keeps the ending of the SYNC, and removes the front byte at most. -/
theorem RunsOn.edge (h : RunsOn x s) (ht : edge s = .next t) (hb : t.busy = true) : RunsOn x t := by
  rcases edge_of_running h.running with he | ⟨_, he, hcont⟩
  · obtain ⟨e, hend, hidle⟩ := ending_completes h.honest
    cases (he.trans hend).symm.trans ht
    cases hidle.symm.trans hb
  · cases he.symm.trans ht
    have ha := (edgeCase_of_edge ht).accessed_of_busy hb
    have hd : decodeCommand t.cmd = .ok .sync := ha.cmd ▸ h.sync
    have hc : t.claim = none := ha.claim.trans h.honest
    have hsuffix : t.stream <:+ s.stream := by
      rcases ha.stream with e | ⟨-, -, b, e⟩
      · exact e ▸ List.suffix_rfl
      · exact e ▸ List.suffix_cons b t.stream
    exact ⟨hcont.running, hd, hc, hsuffix.trans h.removed,
      (leaves_eq_of_ending_eq h.sync h.honest hd hc hcont.same).trans h.left⟩

/-- If the block is busy after `n` clock edges, the SYNC still runs. -/
theorem run_clocks_runsOn {n : Nat} (hi : s.inputs = List.replicate n .clock ++ l) (h : s.busy = true → RunsOn x s)
    (hr : run n s = .next u) : u.inputs = l ∧ (u.busy = true → RunsOn x u) := by
  induction n generalizing s with
  | zero =>
    cases hr
    exact ⟨hi, h⟩
  | succ n ih =>
    have hstep : step s = Machine.edge (setInputs (List.replicate n .clock ++ l) s) := step_of_clock hi
    cases he : Machine.edge (setInputs (List.replicate n .clock ++ l) s) with
    | fault => rw [run_succ_of_fault n (hstep.trans he)] at hr; cases hr
    | refused => rw [run_succ_of_refused n (hstep.trans he)] at hr; cases hr
    | next t =>
      rw [run_succ_of_next n (hstep.trans he)] at hr
      refine ih (edge_inputs he) (fun hb => ?_) hr
      have hbefore : s.busy = true := ((edgeCase_of_edge he).accessed_of_busy hb).busy.symm.trans hb
      exact ((h hbefore).setInputs _).edge he hb

/-- What has been removed so far is no longer than what the completed attempt removes. -/
theorem RunsOn.removed_le (h : RunsOn x s) : ∃ k, k ≤ (syncFn x).consumed ∧ s.stream = x.drop k := by
  have hle := (leaves_suffix s).length_le
  rw [h.left, unread, List.length_drop] at hle
  exact ⟨x.length - s.stream.length, by omega, List.suffix_iff_eq_drop.mp h.removed⟩

/-- Settles O51: the block is busy before the reset edge, so the SYNC still runs there. -/
theorem resetAbandonsSync : Obligations.ResetAbandonsSync := by
  intro s u n hb hc hu hub
  have hstart : step { s with inputs := .start 0#36 :: List.replicate n .clock ++ [.reset] } =
      .next (accept 0#36 (setInputs (List.replicate n .clock ++ [.reset]) s)) :=
    step_of_start_honest rfl hb hc
  have hruns := runsOn_accept (w := 0#36) (s := setInputs (List.replicate n .clock ++ [.reset]) s) (by decide) hc
  have hrun := (run_succ_of_next n hstart).symm.trans hu
  obtain ⟨hui, h⟩ := run_clocks_runsOn (accept_inputs _ _) (fun _ => hruns) hrun
  obtain ⟨k, hk, hs⟩ := (h hub).removed_le
  exact ⟨_, k, run_succ_of_reset hu hui, hk, hs, rfl, rfl, rfl, rfl⟩

/-! ## A frame read cut on the reference schedule (R80, R161) -/

/-- One clock edge of the reference schedule. -/
theorem OnSchedule.step_clock {p q : Phase} {f g : Frame} {m : Nat} {y : List Byte}
    (h : OnSchedule p f m x (.clock :: l) s)
    (he : ∀ s, OnSchedule p f m x l s → ∃ t, Machine.edge s = .next t ∧ OnSchedule q g m y l t) :
    ∃ t, step s = .next t ∧ OnSchedule q g m y l t := by
  obtain ⟨t, ht, h'⟩ := he _ (h.setInputs l)
  exact ⟨t, (step_of_clock h.inputs).trans ht, h'⟩

/-- Each of the first three edges of a frame read removes the front byte. -/
theorem OnSchedule.run_clocks {f : Frame} {m k : Nat} {high low checksum : Byte}
    (h : OnSchedule .start f m (0xFF#8 :: high :: low :: checksum :: x) (List.replicate k .clock ++ l) s) (hk : k ≤ 3) :
    ∃ t, run k s = .next t ∧ t.stream = (0xFF#8 :: high :: low :: checksum :: x).drop k ∧ t.inputs = l := by
  match k with
  | 0 => exact ⟨s, rfl, h.stream, h.inputs⟩
  | k + 1 =>
    obtain ⟨s1, e1, h1⟩ := h.step_clock fun _ h => h.edge_header (by simp)
    rw [run_succ_of_next k e1]
    match k with
    | 0 => exact ⟨s1, rfl, h1.stream, h1.inputs⟩
    | k + 1 =>
      obtain ⟨s2, e2, h2⟩ := h1.step_clock fun _ h => h.edge_high
      rw [run_succ_of_next k e2]
      match k with
      | 0 => exact ⟨s2, rfl, h2.stream, h2.inputs⟩
      | k + 1 =>
        obtain ⟨s3, e3, h3⟩ := h2.step_clock fun _ h => h.edge_low
        obtain rfl : k = 0 := by omega
        exact ⟨s3, run_succ_of_next 0 e3, h3.stream, h3.inputs⟩

/-- Settles O52: `k` edges of the frame read, then the reset edge. -/
theorem resetCutsFrameRead : Obligations.ResetCutsFrameRead := by
  intro s high low checksum rest k hb hslack hph hw hc hs hk hi
  have h : OnSchedule .start s.frame s.free (0xFF#8 :: high :: low :: checksum :: rest)
      (List.replicate k .clock ++ [.reset]) s := ⟨hb, hw, hc, hslack, hph, rfl, rfl, hs, hi⟩
  obtain ⟨t, hrun, hts, hti⟩ := h.run_clocks hk
  exact ⟨_, run_succ_of_reset hrun hti, hts.trans (by rw [hs]), rfl, rfl, rfl, rfl⟩

/-! ## A header byte of noise (R168) -/

/-- Settles O30: the four bytes read are a frame with `0xFF` for its high byte; its own checksum test decides. -/
theorem noiseHeaderSwallowsFrame : Obligations.NoiseHeaderSwallowsFrame := by
  intro s high low checksum tail hc _ hs
  by_cases hsum : (0xFF + 0xFF + high.toNat) % 256 = low.toNat
  · obtain ⟨t, ht, ha, hts⟩ := syncValidated s 0xFF#8 high low (checksum :: tail) hc hs hsum
    exact ⟨t, ht, hts, by rw [ha.rsp, if_pos hsum]⟩
  · obtain ⟨t, d, ht, ha, hts⟩ := syncChecksumError s 0xFF#8 high low (checksum :: tail) hc hs hsum
    exact ⟨t, ht, hts, by rw [ha.rsp, if_neg hsum]⟩

end Sys2Proof.Machine
end
